-- ==== Sys2Proof/Word.lean ====
section
/-!
DEFINITION. The two sizes of value in CORE: the 8-bit cell and the 16-bit register word (rules R8, R21, R50).
-/

namespace Sys2Proof

/-- A cell of memory or a byte of an instruction, a natural number in `0..255` (rules R8, R50). -/
abbrev Byte := BitVec 8

/-- What a register holds, a natural number in `0..65535`, read as unsigned (rules R8, R21). -/
abbrev Word := BitVec 16

end Sys2Proof
end

