-- ==== Sys2Proof/Machine/Flags.lean ====
section
/-!
DEFINITION. The ALU. CORE has no flags: no carry, borrow, overflow, zero or negative (rule R30), so what stands here
is the whole of its arithmetic: the exact result of an operation, and the reduction every register write makes.
-/

namespace Sys2Proof.Machine

/-- The reduction modulo `2^16` of every register write (rules R8, R22). -/
def narrow (v : Int) : Word := BitVec.ofInt 16 v

/-- The exact sum of two words (rule R160). -/
def aluAdd (a b : Word) : Int := (a.toNat : Int) + (b.toNat : Int)

/-- The exact difference of two words, which may be negative (rule R165). -/
def aluSub (a b : Word) : Int := (a.toNat : Int) - (b.toNat : Int)

end Sys2Proof.Machine
end

