-- ==== Sys2Proof/Config.lean ====
section
/-!
DEFINITION. The parameters of CORE (rule R7). The spec leaves only MEMSIZE and mem0 open: both are carried by the state,
so no constant here is a free value (rule R87: no behaviour is left unpredictable). UNKNOWN_OPCODE_FAULTS is fixed to
`false` by rule R7, so the machine has no arm for it (rule R182).
-/

namespace Sys2Proof

/-- The largest MEMSIZE a machine may have (rule R7, the spec's decision D4). -/
abbrev Config.maxMemSize : Nat := 65536

/-- MEMSIZE of the reset state: the spec's reference value (rule R7, decision D4). DESIGN CHOICE, unsafe for claims
about `State.reset` alone: log 2. -/
def Config.referenceMemSize : Fin (Config.maxMemSize + 1) := 20

/-- What a cell reads as that no entry of the memory list names. DESIGN CHOICE, unsafe for claims about `State.reset`
alone: log 3. -/
def Config.unlistedCell : Byte := 0

/-- The value of the program counter when a run starts (rules R7, R34). -/
def Config.resetPc : Word := 0

/-- Bytes per instruction, the amount of every advance (rules R7, R27). -/
def Config.ilen : Nat := 3

end Sys2Proof
end

