-- ==== Sys2Proof/Machine/State.lean ====
section
/-!
DEFINITION. The state of CORE (rule R36), the reasons a step can stop, and the state at reset (rules R34, R210).
-/

namespace Sys2Proof.Machine

/-- The registers (rule R20). There is no other register file (rule R25). -/
inductive Reg where
  /-- Register id 0, the program counter. -/
  | pc
  /-- Register id 1, accumulator R1. -/
  | r1
  /-- Register id 2, accumulator R2. -/
  | r2
  deriving DecidableEq, Repr

/-- The failures CORE raises: a name and nothing else (rule R180). -/
inductive Failure where
  /-- An access outside memory or a register id that names no register (rule R181). -/
  | outOfBounds
  deriving DecidableEq, Repr

/-- The run state (rule R29). -/
inductive RunState where
  /-- Steps are taken. -/
  | running
  /-- Ended by HALT; terminal until the next reset. -/
  | halted
  /-- Ended by a failure, which it records; terminal until the next reset. -/
  | faulted (name : Failure)
  deriving DecidableEq, Repr

/-- The memory array: the cells that differ from `Config.unlistedCell`, by rising address. -/
abbrev Memory := List Host.Cell

/-- `m` is in canonical form from address `lo` on: addresses at least `lo` and strictly rising, and no entry that says
what an unlisted address says anyway. -/
def Memory.wfFrom : Nat → Memory → Bool
  | _, [] => true
  | lo, (a, v) :: m => decide (lo ≤ a) && (v != Config.unlistedCell) && Memory.wfFrom (a + 1) m

/-- The canonical form of memory: equal memories are equal lists. -/
def Memory.wf (m : Memory) : Bool := Memory.wfFrom 0 m

/-- The complete machine state (rule R36), with the parameter MEMSIZE beside it: log 1. -/
structure State where
  /-- Register 0, the program counter (rules R20, R26). -/
  pc : Word
  /-- Register 1, accumulator R1 (rule R20). -/
  r1 : Word
  /-- Register 2, accumulator R2 (rule R20). -/
  r2 : Word
  /-- The run state (rule R29). -/
  runState : RunState
  /-- The cells of memory (rule R32). -/
  mem : List Host.Cell
  /-- MEMSIZE, the number of cells, `0 .. 65536` (rule R7). No step changes it (rule R32). -/
  memSize : Fin (Config.maxMemSize + 1)
  deriving DecidableEq, Repr

/-- Why `step` gives no next state. In `HALTED` and in `FAULTED` the machine has no step (rules R29, R110; point I18 of
93_implementation_defined.md): log 4. -/
inductive Fault where
  /-- Raised by `step`, and by nothing else, in the run state `HALTED`. Safe. -/
  | runHalted
  /-- Raised by `step`, and by nothing else, in the run state `FAULTED`, with the failure it records. Safe. -/
  | runFaulted (name : Failure)
  deriving DecidableEq, Repr

/-- Why `exec` gives an instruction no meaning. -/
inductive Refusal where
  /-- For an arm of `exec` without a meaning; no arm of this model is so. Safe. -/
  | notModelled (mnemonic : String)
  deriving DecidableEq, Repr

/-- The machine at the start of a run (rules R34, R210): registers zero, `RUNNING`. Memory is the host's: here MEMSIZE
is the reference value (DESIGN CHOICE, log 2) and nothing has been placed in any cell (DESIGN CHOICE, log 3). -/
def State.reset : State where
  pc := Config.resetPc
  r1 := 0
  r2 := 0
  runState := .running
  mem := []
  memSize := Config.referenceMemSize

end Sys2Proof.Machine
end

