-- ==== Sys2Proof/Machine/Operands.lean ====
section
/-!
DEFINITION. The operand forms (rules R82, R83, R150) and the byte order of a data word (rule R54).
-/

namespace Sys2Proof.Machine

/-- The register an operand byte names; `none` where `ValidReg` is false (rules R9, R20). -/
def regOperand (b : Byte) : Option Reg :=
  if b = 0 then some .pc
  else if b = 1 then some .r1
  else if b = 2 then some .r2
  else none

/-- The address of the low cell of a data access: the operand byte, zero-extended (rules R83, R150). -/
def dataAddress (b : Byte) : Nat := b.toNat

/-- The word two cells hold, the low cell at the lower address (rules R10, R54). -/
def wordOfCells (lo hi : Byte) : Word := BitVec.ofNat 16 (lo.toNat + 256 * hi.toNat)

/-- The cell stored at the lower address (rules R10, R54). -/
def lowCell (v : Word) : Byte := BitVec.ofNat 8 (v.toNat % 256)

/-- The cell stored at the higher address (rules R10, R54). -/
def highCell (v : Word) : Byte := BitVec.ofNat 8 (v.toNat / 256)

end Sys2Proof.Machine
end

