-- ==== Sys2Proof/Machine/Ops.lean ====
section
/-!
DEFINITION. The named operations over memory, registers and the run state that every meaning is made of: one home for
each access, raising `OutOfBounds` as one shared operation, and the reset that alone leaves it.
-/

namespace Sys2Proof.Machine

/-- What the cell at an address holds. -/
def Memory.read : Memory → Nat → Byte
  | [], _ => Config.unlistedCell
  | (b, v) :: m, a => if a = b then v else Memory.read m a

/-- Puts a cell that is not yet listed at the front, unless it says what an unlisted cell says. -/
def Memory.cons (a : Nat) (v : Byte) (m : Memory) : Memory :=
  if v = Config.unlistedCell then m else (a, v) :: m

/-- Writes one cell and keeps the canonical form. -/
def Memory.write : Memory → Nat → Byte → Memory
  | [], a, v => Memory.cons a v []
  | (b, w) :: m, a, v =>
    if a < b then Memory.cons a v ((b, w) :: m)
    else if a = b then Memory.cons a v m
    else (b, w) :: Memory.write m a v

/-- The memory whose cells from address `a` on are the given bytes. -/
def Memory.ofBytes : Nat → List Byte → Memory
  | _, [] => []
  | a, b :: bs => Memory.cons a b (Memory.ofBytes (a + 1) bs)

/-- What the cell at address `a` holds, whether or not memory has it. -/
def State.cell (s : State) (a : Nat) : Byte := Memory.read s.mem a

/-- `InRange(a, n)`: all of the `n` cells from `a` on are in memory; the sum never wraps (rules R10, R51). -/
abbrev State.inRange (s : State) (a n : Nat) : Prop := a + n ≤ s.memSize.val

/-- `MemRead(a, 1)`; `none` raises `OutOfBounds` (rule R10). -/
def State.readCell (s : State) (a : Nat) : Option Byte :=
  if s.inRange a 1 then some (s.cell a) else none

/-- `MemRead(a, 2)`; `none` raises `OutOfBounds` (rules R10, R58). -/
def State.readWord (s : State) (a : Nat) : Option Word :=
  if s.inRange a 2 then some (wordOfCells (s.cell a) (s.cell (a + 1))) else none

/-- `MemWrite(a, 2, v)`: both cells or neither; `none` raises `OutOfBounds` (rules R10, R58). The low cell is written
first, which nothing can observe (rule R59): log 9. -/
def State.writeWord (s : State) (a : Nat) (v : Word) : Option State :=
  if s.inRange a 2 then
    some { s with mem := Memory.write (Memory.write s.mem a (lowCell v)) (a + 1) (highCell v) }
  else none

/-- `x[i]` (rule R9). -/
def State.readReg (s : State) : Reg → Word
  | .pc => s.pc
  | .r1 => s.r1
  | .r2 => s.r2

/-- `x[i] <- v` for any integer `v` (rules R9, R22). -/
def State.writeReg (s : State) (r : Reg) (v : Int) : State :=
  match r with
  | .pc => { s with pc := narrow v }
  | .r1 => { s with r1 := narrow v }
  | .r2 => { s with r2 := narrow v }

/-- The advance of the program counter, as the operation left it (rules R27, R115). -/
def State.advance (s : State) : State := s.writeReg .pc ((s.pc.toNat : Int) + (Config.ilen : Int))

/-- `raise OutOfBounds`, from the state the step began in: nothing changes but the run state, which records the
failure; nothing is saved and control goes nowhere (rules R11, R184). There is no return from it (rule R189): only
`State.start` leaves it. -/
def State.raiseOutOfBounds (s : State) : State := { s with runState := .faulted .outOfBounds }

/-- The end of every operation but HALT: it raised (`none`), or it completed and the program counter advances
(rule R110, steps 4 and 5). -/
def completeStep (s : State) (operation : Option State) : Host.Outcome State Fault Refusal :=
  match operation with
  | none => .next s.raiseOutOfBounds
  | some t => .next t.advance

/-- Reset, the start of a run: registers zero, `RUNNING`, memory as the host left it (rule R210). The only way out of
`HALTED` and `FAULTED` (rule R211); it is the host's move and no step takes it: log 8. -/
def State.start (s : State) : State :=
  { s with pc := Config.resetPc, r1 := 0, r2 := 0, runState := .running }

/-- The start of a run on the memory `mem0` the host gives, one byte for each cell (rules R7, R212, R213); of a list
longer than the largest MEMSIZE the bytes beyond it are no cells: log 7. -/
def State.launch (mem0 : List Byte) : State where
  pc := Config.resetPc
  r1 := 0
  r2 := 0
  runState := .running
  mem := Memory.ofBytes 0 (mem0.take Config.maxMemSize)
  memSize := ⟨(mem0.take Config.maxMemSize).length, by simp [List.length_take]⟩

/-- The host writes one cell, if memory has it (rule R212). -/
def State.hostWrite (s : State) (a : Nat) (b : Byte) : State :=
  if s.inRange a 1 then { s with mem := Memory.write s.mem a b } else s

/-- The host writes consecutive cells from `a` on. -/
def State.hostWriteBytes (s : State) (a : Nat) : List Byte → State
  | [] => s
  | b :: bs => State.hostWriteBytes (s.hostWrite a b) (a + 1) bs

/-- The host gives memory at least `n` cells, or as many as a memory can have. -/
def State.growTo (s : State) (n : Nat) : State :=
  if s.memSize.val < n then
    { s with memSize := if h : n < Config.maxMemSize + 1 then ⟨n, h⟩ else Fin.last Config.maxMemSize }
  else s

end Sys2Proof.Machine
end

