-- ==== Sys2Proof/Machine/Arithmetic.lean ====
section
/-!
DEFINITION. ADD and SUB (rules R160 to R171).
-/

namespace Sys2Proof.Machine

/-- The shape ADD and SUB share: check both register ids, read both registers, then write the first (rules R160, R165);
`none` raises `OutOfBounds`. -/
def aluOperation (result : Word → Word → Int) (s : State) (b1 b2 : Byte) : Option State :=
  match regOperand b1, regOperand b2 with
  | some ra, some rb => some (s.writeReg ra (result (s.readReg ra) (s.readReg rb)))
  | _, _ => none

/-- ADD (rule R160). -/
def execAdd (ra rb : Byte) (s : State) : Host.Outcome State Fault Refusal :=
  completeStep s (aluOperation aluAdd s ra rb)

/-- SUB (rule R165). -/
def execSub (ra rb : Byte) (s : State) : Host.Outcome State Fault Refusal :=
  completeStep s (aluOperation aluSub s ra rb)

end Sys2Proof.Machine
end

