-- ==== Sys2Proof/Machine/Control.lean ====
section
/-!
DEFINITION. HALT and the reserved opcodes (rules R118, R119).
-/

namespace Sys2Proof.Machine

/-- HALT: the run state becomes `HALTED`; the program counter is not advanced (rule R118). -/
def execHalt (s : State) : Host.Outcome State Fault Refusal :=
  .next { s with runState := .halted }

/-- A reserved opcode: nothing, then the advance, whatever the opcode and operand bytes (rule R119). -/
def execRsvd (_op _k _l : Byte) (s : State) : Host.Outcome State Fault Refusal :=
  completeStep s (some s)

end Sys2Proof.Machine
end

