-- ==== Sys2Proof/Machine/LoadStore.lean ====
section
/-!
DEFINITION. LOADW and STORE (rules R140 to R150).
-/

namespace Sys2Proof.Machine

/-- `Execute_LOADW` (rule R140); `none` raises `OutOfBounds`. -/
def loadOperation (s : State) (b1 b2 : Byte) : Option State :=
  match regOperand b1, s.readWord (dataAddress b2) with
  | some r, some v => some (s.writeReg r v.toNat)
  | _, _ => none

/-- `Execute_STORE` (rule R145); `none` raises `OutOfBounds`. -/
def storeOperation (s : State) (b1 b2 : Byte) : Option State :=
  match regOperand b1 with
  | some r => s.writeWord (dataAddress b2) (s.readReg r)
  | none => none

/-- LOADW (rule R140). -/
def execLoadw (r a : Byte) (s : State) : Host.Outcome State Fault Refusal :=
  completeStep s (loadOperation s r a)

/-- STORE (rule R145). -/
def execStore (r a : Byte) (s : State) : Host.Outcome State Fault Refusal :=
  completeStep s (storeOperation s r a)

end Sys2Proof.Machine
end

