-- ==== Sys2Proof/Syntax.lean ====
section
/-!
DEFINITION. The instructions of CORE as data (rules R82, R84). The table's fourteen RSVD rows are one instruction
(rules R93, R119) and so one constructor: log 6.
-/

namespace Sys2Proof

/-- An instruction with its operand bytes as they stand in memory. A register operand is the byte itself: ids 3 to 255
decode, and fail when the register file is indexed (rules R83, R88). -/
inductive Instr where
  /-- `LOADW R A`: register id `r`, address `a` of the low cell (rule R140). -/
  | loadw (r a : Byte)
  /-- `STORE R A`: register id `r`, address `a` of the low cell (rule R145). -/
  | store (r a : Byte)
  /-- `ADD Ra Rb`: register ids (rule R160). -/
  | add (ra rb : Byte)
  /-- `SUB Ra Rb`: register ids (rule R165). -/
  | sub (ra rb : Byte)
  /-- `HALT`: no operand byte is fetched (rules R89, R118). -/
  | halt
  /-- A reserved opcode `op` and the two operand bytes that are fetched and ignored (rules R86, R119). -/
  | rsvd (op k l : Byte)
  deriving DecidableEq, Repr

/-- The mnemonic of the instruction's rows in the opcode table (rule R84). -/
def Instr.mnemonic : Instr → String
  | .loadw _ _ => "LOADW"
  | .store _ _ => "STORE"
  | .add _ _ => "ADD"
  | .sub _ _ => "SUB"
  | .halt => "HALT"
  | .rsvd _ _ _ => "RSVD"

/-- How many cells the cycle fetches for the instruction: one for HALT, three for every other (rules R52, R89). -/
def Instr.fetchedBytes : Instr → Nat
  | .loadw _ _ => 3
  | .store _ _ => 3
  | .add _ _ => 3
  | .sub _ _ => 3
  | .halt => 1
  | .rsvd _ _ _ => 3

end Sys2Proof
end

