-- ==== Sys2Proof/Machine/Dispatch.lean ====
section
/-! DEFINITION. The opcode dispatcher: exactly one arm runs for each instruction (rule R114). -/

namespace Sys2Proof.Machine

def exec (i : Instr) (s : State) : Host.Outcome State Fault Refusal :=
  match i with
  | .loadw r a => Sys2Proof.Machine.execLoadw r a s
  | .store r a => Sys2Proof.Machine.execStore r a s
  | .add ra rb => Sys2Proof.Machine.execAdd ra rb s
  | .sub ra rb => Sys2Proof.Machine.execSub ra rb s
  | .halt => Sys2Proof.Machine.execHalt s
  | .rsvd op k l => Sys2Proof.Machine.execRsvd op k l s

end Sys2Proof.Machine
end

