-- ==== Sys2Proof/WellFormed.lean ====
section
/-!
DEFINITION. Which terms of `Instr` are instructions the hardware has. The one check: the opcode of a reserved
instruction is one of the 251 values that none of the five defined instructions takes (rules R84, R86).
-/

namespace Sys2Proof

/-- `op` is a reserved opcode, `0x00` or `0x05 .. 0xFE` (rule R86). -/
abbrev reservedOpcode (op : Byte) : Prop :=
  op.toNat = 0 ∨ (5 ≤ op.toNat ∧ op.toNat ≤ 254)

/-- The instruction is one of the hardware's. Operand bytes are never restricted (rules R85, R88). -/
abbrev Instr.WellFormed (i : Instr) : Prop :=
  match i with
  | .loadw _ _ => True
  | .store _ _ => True
  | .add _ _ => True
  | .sub _ _ => True
  | .halt => True
  | .rsvd op _ _ => reservedOpcode op

end Sys2Proof
end

