-- ==== Sys2Proof/Decode.lean ====
section
/-!
DEFINITION. The instruction decoder (rules R80 to R89), the encoder beside it, and the opcode table as the spec's
machine-readable file gives it (rules R81, R93).
-/

namespace Sys2Proof

/-- Why a string of bytes holds no whole instruction at its front. In the machine both are fetches outside memory
(rule R181, situations 1 and 2). -/
inductive DecodeError where
  /-- There is no opcode byte. Safe. -/
  | noOpcode
  /-- The opcode is not HALT and one or both of its operand bytes are missing. Safe. -/
  | noOperands
  deriving DecidableEq, Repr

/-- The opcode of LOADW (rule R84). -/
def opLoadw : Byte := 0x01
/-- The opcode of STORE (rule R84). -/
def opStore : Byte := 0x02
/-- The opcode of ADD (rule R84). -/
def opAdd : Byte := 0x03
/-- The opcode of SUB (rule R84). -/
def opSub : Byte := 0x04
/-- The opcode of HALT (rule R84). -/
def opHalt : Byte := 0xFF

/-- A fetched triple whose opcode is not HALT's: the operation is selected by the opcode alone, and every value that
matches no defined instruction is the reserved no-operation (rules R84, R85, R86, R114). -/
def decodeTriple (b0 b1 b2 : Byte) : Instr :=
  if b0 = opLoadw then .loadw b1 b2
  else if b0 = opStore then .store b1 b2
  else if b0 = opAdd then .add b1 b2
  else if b0 = opSub then .sub b1 b2
  else .rsvd b0 b1 b2

/-- Reads one instruction from the front of a string of bytes, the byte at the lowest address first, and gives it with
the bytes after it. HALT is recognised from its opcode byte alone (rules R80, R85, R89). -/
def decode : List Byte → Except DecodeError (Instr × List Byte)
  | [] => .error .noOpcode
  | b0 :: rest =>
    if b0 = opHalt then .ok (.halt, rest)
    else match rest with
      | b1 :: b2 :: rest' => .ok (decodeTriple b0 b1 b2, rest')
      | _ => .error .noOperands

/-- The bytes the cycle fetches for an instruction, in memory order (rules R84, R91). -/
def encode : Instr → List Byte
  | .loadw r a => [opLoadw, r, a]
  | .store r a => [opStore, r, a]
  | .add ra rb => [opAdd, ra, rb]
  | .sub ra rb => [opSub, ra, rb]
  | .halt => [opHalt]
  | .rsvd op k l => [op, k, l]

/-- One row of the opcode table: the word `W` of rule R81 selects it when `W AND mask = pattern`. -/
structure OpcodeRow where
  /-- The row's mnemonic. -/
  mnemonic : String
  /-- The row's "match" number. -/
  pattern : Nat
  /-- The row's "mask" number. -/
  mask : Nat
  deriving DecidableEq, Repr

/-- The three instruction bytes as the one number that the table's match and mask apply to (rules R12, R81). -/
def tripleWord (b0 b1 b2 : Byte) : Nat :=
  b0.toNat * 65536 + b1.toNat * 256 + b2.toNat

/-- The rows of the five defined instructions (rule R93). -/
def definedRows : List OpcodeRow :=
  [⟨"LOADW", 0x010000, 0xFF0000⟩, ⟨"STORE", 0x020000, 0xFF0000⟩, ⟨"ADD", 0x030000, 0xFF0000⟩,
   ⟨"SUB", 0x040000, 0xFF0000⟩, ⟨"HALT", 0xFF0000, 0xFF0000⟩]

/-- The fourteen rows that tile the reserved opcode values (rule R93). -/
def reservedRows : List OpcodeRow :=
  [⟨"RSVD", 0x000000, 0xFF0000⟩, ⟨"RSVD", 0x050000, 0xFF0000⟩, ⟨"RSVD", 0x060000, 0xFE0000⟩,
   ⟨"RSVD", 0x080000, 0xF80000⟩, ⟨"RSVD", 0x100000, 0xF00000⟩, ⟨"RSVD", 0x200000, 0xE00000⟩,
   ⟨"RSVD", 0x400000, 0xC00000⟩, ⟨"RSVD", 0x800000, 0xC00000⟩, ⟨"RSVD", 0xC00000, 0xE00000⟩,
   ⟨"RSVD", 0xE00000, 0xF00000⟩, ⟨"RSVD", 0xF00000, 0xF80000⟩, ⟨"RSVD", 0xF80000, 0xFC0000⟩,
   ⟨"RSVD", 0xFC0000, 0xFE0000⟩, ⟨"RSVD", 0xFE0000, 0xFF0000⟩]

/-- The nineteen rows of spec/opcode_table.json (rule R93). -/
def opcodeTable : List OpcodeRow := definedRows ++ reservedRows

/-- The row selects the instruction word (rule R81). -/
def rowSelects (row : OpcodeRow) (w : Nat) : Bool := w &&& row.mask == row.pattern

/-- Byte `k` of an instruction from its number `w` of `nbits` bits, the first byte in the top eight bits; a byte the
number does not reach is zero. -/
def tableByte (nbits w k : Nat) : Byte :=
  if 8 * k + 8 ≤ nbits then BitVec.ofNat 8 (w / 2 ^ (nbits - (8 * k + 8))) else 0

/-- An instruction's bytes from its number `w` of `nbits` bits as spec/opcode_table.json numbers them: the opcode in
the top byte of `W` (rule R81), the operand bytes below it. DEDUCED, safe: log 5. -/
def tableBytes (nbits w : Nat) : List Byte :=
  [tableByte nbits w 0, tableByte nbits w 1, tableByte nbits w 2]

/-- What the decoder reads from the instruction whose bits, as the table numbers them, are `w`. -/
def decodeTableWord (nbits w : Nat) : Option Instr :=
  match decode (tableBytes nbits w) with
  | .ok (i, _) => some i
  | .error _ => none

end Sys2Proof
end

