-- ==== Sys2Proof/Machine/Fetch.lean ====
section
/-!
DEFINITION. The fetch part of the instruction cycle (rule R110, steps 1 to 3) and where a program is placed for it.
-/

namespace Sys2Proof.Machine

/-- The bytes the cycle fetches at the program counter, in memory order: none where the opcode fetch is outside memory
(rule R111); the opcode alone where it is HALT's (rule R112) or the operand fetch is outside memory (rule R113); else
all three. The address sums do not wrap (rule R51). -/
def State.fetchBytes (s : State) : List Byte :=
  match s.readCell s.pc.toNat with
  | none => []
  | some b0 =>
    if b0 = opHalt then [b0]
    else if s.inRange s.pc.toNat 3 then [b0, s.cell (s.pc.toNat + 1), s.cell (s.pc.toNat + 2)]
    else [b0]

/-- The state with the bytes stored at the program counter and the run going on, memory grown where the bytes need more
of it: log 7. -/
def State.placeAtPc (s : State) (bytes : List Byte) : State :=
  let grown := s.growTo (s.pc.toNat + bytes.length)
  { grown.hostWriteBytes s.pc.toNat bytes with runState := .running }

end Sys2Proof.Machine
end

