-- ==== Sys2Proof/Machine/Step.lean ====
section
/-!
DEFINITION. The step of CORE (rule R110), and the placing of one instruction where the next step fetches it.
-/

namespace Sys2Proof.Machine

/-- One step. While `RUNNING`: fetch, decode and execute; bytes that hold no whole instruction are a fetch outside
memory, which raises `OutOfBounds` (rules R110 to R113, R181). In `HALTED` and `FAULTED` there is no step
(rule R29): log 4. -/
def step (s : State) : Host.Outcome State Fault Refusal :=
  match s.runState with
  | .halted => .fault .runHalted
  | .faulted name => .fault (.runFaulted name)
  | .running =>
    match decode s.fetchBytes with
    | .ok (i, _) => exec i s
    | .error _ => .next s.raiseOutOfBounds

/-- The state with the instruction of the table's number `w` stored where `step` fetches next: log 5, log 7. -/
def State.withFetchWord (s : State) (nbits w : Nat) : State := s.placeAtPc (tableBytes nbits w)

end Sys2Proof.Machine
end

