-- ==== Sys2Proof/Safety.lean ====
section
/-!
DEFINITION. The terms that claims about CORE are stated in: the invariant of its states, which registers and cells an
instruction may change, the six situations of rule R181, and what the host sees.
-/

namespace Sys2Proof.Machine

/-- Memory lists no cell at `n` or above. -/
def Memory.below (n : Nat) (m : Memory) : Bool := m.all (fun c => decide (c.1 < n))

/-- The invariant of the model's states: memory is in canonical form and lists no cell beyond MEMSIZE (rule R32). -/
abbrev State.Inv (s : State) : Prop :=
  Memory.wf s.mem = true ∧ Memory.below s.memSize.val s.mem = true

/-- `x[b]` for a register operand byte that names a register (rules R9, R20), in the spec's own terms. -/
def State.regAt (s : State) (b : Byte) : Word :=
  if b = 0 then s.pc else if b = 1 then s.r1 else s.r2

/-- The state after an operation wrote `v` to `x[b]` and the program counter advanced; all else as before
(rules R27, R115, R117). -/
def State.afterResult (s : State) (b : Byte) (v : Word) : State :=
  { s with
    pc := (if b = 0 then v else s.pc) + 3
    r1 := if b = 1 then v else s.r1
    r2 := if b = 2 then v else s.r2 }

/-- The state after `raise OutOfBounds` (rule R184). -/
def State.afterFault (s : State) : State := { s with runState := .faulted .outOfBounds }

/-- The register operand an instruction writes its result to (rule R24). -/
def Instr.destination : Instr → Option Byte
  | .loadw r _ => some r
  | .store _ _ => none
  | .add ra _ => some ra
  | .sub ra _ => some ra
  | .halt => none
  | .rsvd _ _ _ => none

/-- The address of the low cell an instruction stores to, for the one that stores (rule R32). -/
def Instr.storeAddress : Instr → Option Nat
  | .loadw _ _ => none
  | .store _ a => some (dataAddress a)
  | .add _ _ => none
  | .sub _ _ => none
  | .halt => none
  | .rsvd _ _ _ => none

/-- The instruction the next step executes, if the state is `RUNNING` and the fetch finds one. -/
def State.fetched (s : State) : Option Instr :=
  match decode s.fetchBytes with
  | .ok (i, _) => some i
  | .error _ => none

/-- The next step writes register 0 as the destination of a completed operation (rule R117). -/
def State.writesPc (s : State) : Prop :=
  ∃ i t, s.fetched = some i ∧ Instr.destination i = some 0 ∧ exec i s = .next t ∧ t.runState = .running

/-- The next step is a STORE that completes and writes the cell at `a` (rule R69). -/
def State.storesTo (s : State) (a : Nat) : Prop :=
  ∃ i t low, s.fetched = some i ∧ Instr.storeAddress i = some low ∧ exec i s = .next t ∧ t.runState = .running ∧
    (a = low ∨ a = low + 1)

/-- The six situations of rule R181, in MEMSIZE, the program counter and the three instruction bytes. -/
abbrev outOfBoundsRule (size pc : Nat) (b0 b1 b2 : Byte) : Prop :=
  size ≤ pc ∨
  (b0 ≠ 0xFF ∧ size ≤ pc + 2) ∨
  ((b0 = 0x01 ∨ b0 = 0x02 ∨ b0 = 0x03 ∨ b0 = 0x04) ∧ 2 < b1.toNat) ∨
  ((b0 = 0x03 ∨ b0 = 0x04) ∧ 2 < b2.toNat) ∨
  (b0 = 0x01 ∧ size ≤ b2.toNat + 1) ∨
  (b0 = 0x02 ∧ size ≤ b2.toNat + 1)

/-- The state is in one of the six situations in which a step raises `OutOfBounds` (rule R181). -/
abbrev State.outOfBoundsSituation (s : State) : Prop :=
  outOfBoundsRule s.memSize.val s.pc.toNat (s.cell s.pc.toNat) (s.cell (s.pc.toNat + 1)) (s.cell (s.pc.toNat + 2))

/-- The word that two cells hold, in the numbers of rule R10: the low byte at the lower address. -/
def State.wordAt (s : State) (a : Nat) : Word :=
  BitVec.ofNat 16 ((s.cell a).toNat + 256 * (s.cell (a + 1)).toNat)

/-- The step of rule R110 line by line, with the bodies of rules R140, R145, R160 and R165 in its arms, in natural
numbers: a second form of the step, for a `RUNNING` state, that uses none of the machine's decoder, operand or ALU
definitions. -/
def pseudocodeStep (s : State) : State :=
  let size := s.memSize.val
  let pc := s.pc.toNat
  let b0 := (s.cell pc).toNat
  let b1 := s.cell (pc + 1)
  let b2 := s.cell (pc + 2)
  let x1 := (s.regAt b1).toNat
  let x2 := (s.regAt b2).toNat
  if ¬ pc + 1 ≤ size then s.afterFault
  else if b0 = 255 then { s with runState := .halted }
  else if ¬ pc + 3 ≤ size then s.afterFault
  else match b0 with
    | 1 =>
      if ¬ b1.toNat ≤ 2 then s.afterFault
      else if ¬ b2.toNat + 2 ≤ size then s.afterFault
      else s.afterResult b1 (s.wordAt b2.toNat)
    | 2 =>
      if ¬ b1.toNat ≤ 2 then s.afterFault
      else if ¬ b2.toNat + 2 ≤ size then s.afterFault
      else
        { s with
          mem := Memory.write (Memory.write s.mem b2.toNat (BitVec.ofNat 8 (x1 % 256))) (b2.toNat + 1)
            (BitVec.ofNat 8 (x1 / 256))
          pc := BitVec.ofNat 16 ((pc + 3) % 65536) }
    | 3 =>
      if ¬ b1.toNat ≤ 2 then s.afterFault
      else if ¬ b2.toNat ≤ 2 then s.afterFault
      else s.afterResult b1 (BitVec.ofNat 16 ((x1 + x2) % 65536))
    | 4 =>
      if ¬ b1.toNat ≤ 2 then s.afterFault
      else if ¬ b2.toNat ≤ 2 then s.afterFault
      else s.afterResult b1 (BitVec.ofNat 16 (if x2 ≤ x1 then x1 - x2 else x1 + 65536 - x2))
    | _ => { s with pc := BitVec.ofNat 16 ((pc + 3) % 65536) }

/-- `k` steps; an answer `.next t` says that all `k` were taken and the machine is in `t` (rule R120). -/
def runSteps : Nat → State → Host.Outcome State Fault Refusal
  | 0, s => .next s
  | k + 1, s =>
    match step s with
    | .next t => runSteps k t
    | .fault r => .fault r
    | .refused r => .refused r

/-- All that the host can learn after a run: the run state and the cells (rules R14, R215). The registers are never
exposed (rule R35). -/
def State.hostView (s : State) : RunState × List Host.Cell × Nat := (s.runState, s.mem, s.memSize.val)

end Sys2Proof.Machine
end

