-- ==== Sys2Proof/Certificates/Slice0/Obligations.lean ====
section
/-!
DEFINITION. The statements for the provers. Each docstring names the rule of spec/ it formalises, and the decision
D<n> of 92_eei_decisions.md or the log entry it rests on where there is one.
-/

open Sys2Proof Sys2Proof.Machine

/-! ## Encoding -/

/-- What is encoded is decoded again, whatever bytes follow (30_encoding.md, sections 1 to 3). -/
def Obligations.DecodeAfterEncodeGivesInstruction : Prop :=
  ∀ (i : Instr) (rest : List Byte), i.WellFormed → decode (encode i ++ rest) = .ok (i, rest)

/-- What is decoded is well-formed and is encoded as the very bytes it was read from: no two strings of bytes decode to
one instruction, and no bit is dropped (30_encoding.md, sections 1 to 3). -/
def Obligations.EncodeAfterDecodeGivesBytes : Prop :=
  ∀ (bytes rest : List Byte) (i : Instr), decode bytes = .ok (i, rest) → i.WellFormed ∧ encode i ++ rest = bytes

/-- Rule R85: every value of the opcode byte selects exactly one row, whatever the operand bytes, the decoder gives that
row's instruction, and HALT is found from its opcode alone. -/
def Obligations.EveryOpcodeSelectsExactlyOneRow : Prop :=
  (∀ b0 b1 b2 : Byte, ∃ i rest, decode [b0, b1, b2] = .ok (i, rest) ∧
    (opcodeTable.filter fun row => rowSelects row (tripleWord b0 b1 b2)).map OpcodeRow.mnemonic = [i.mnemonic]) ∧
  (∀ rest : List Byte, decode (0xFF#8 :: rest) = .ok (.halt, rest))

/-- The words of the source's example program and one reserved triple, written out from rule R84's patterns
(30_encoding.md, sections 3 and 4). -/
def Obligations.WrittenOutWordsDecode : Prop :=
  decode [0x01, 0x01, 0x10] = .ok (.loadw 1 0x10, []) ∧
  decode [0x02, 0x01, 0x0E] = .ok (.store 1 0x0E, []) ∧
  decode [0x03, 0x01, 0x02] = .ok (.add 1 2, []) ∧
  decode [0x04, 0x01, 0x02] = .ok (.sub 1 2, []) ∧
  decode [0xFF, 0x00] = .ok (.halt, [0x00]) ∧
  decode [0xFE, 0x03, 0xFF] = .ok (.rsvd 0xFE 3 0xFF, [])

/-- Bytes that hold no whole instruction are rejected by name; HALT alone is whole with one byte (30_encoding.md,
sections 1 and 3). -/
def Obligations.IncompleteBytesAreRejected : Prop :=
  decode [] = .error .noOpcode ∧
  ∀ b0 b1 : Byte, b0 ≠ 0xFF → decode [b0] = .error .noOperands ∧ decode [b0, b1] = .error .noOperands

/-! ## The step -/

/-- A step of a `RUNNING` state runs the instruction its fetched bytes decode to, and adds nothing around it
(40_cycle_and_control.md, section 1). -/
def Obligations.StepRunsDecodedInstruction : Prop :=
  ∀ (s : State) (i : Instr) (rest : List Byte), s.runState = .running → i.WellFormed →
    decode s.fetchBytes = .ok (i, rest) → step s = exec i s

/-- A well-formed instruction whose encoding stands in memory at the program counter is the one the step runs: three
cells are enough, and for HALT one (40_cycle_and_control.md, section 1; 30_encoding.md, section 1). -/
def Obligations.StepRunsInstructionInMemory : Prop :=
  ∀ (s : State) (i : Instr), s.runState = .running → i.WellFormed →
    s.pc.toNat + (encode i).length ≤ s.memSize.val →
    (∀ k b, (encode i)[k]? = some b → s.cell (s.pc.toNat + k) = b) → step s = exec i s

/-- Rule R110: while `RUNNING` the step is its pseudocode (with the decisions D1, D2, D3 on wrapping that the
pseudocode holds), and in `HALTED` and `FAULTED` no step is taken. -/
def Obligations.StepRefinesPseudocode : Prop :=
  ∀ s : State, (s.runState = .running → step s = .next (pseudocodeStep s)) ∧
    (s.runState ≠ .running → ∀ t, step s ≠ .next t)

/-- Rule R111: the step reads the cell at the program counter as its opcode, and an opcode fetch outside memory raises
`OutOfBounds`, MEMSIZE 0 included (decision D16). -/
def Obligations.OpcodeFetchOutsideMemoryRaises : Prop :=
  ∀ s : State, s.runState = .running →
    (s.memSize.val ≤ s.pc.toNat → step s = .next s.afterFault) ∧
    (s.pc.toNat < s.memSize.val → s.fetchBytes.head? = some (s.cell s.pc.toNat))

/-- Rule R113: for every opcode but HALT, defined or reserved, an operand fetch outside memory raises `OutOfBounds` and
the operation is not started; where it is inside, both bytes are fetched. -/
def Obligations.OperandFetchOutsideMemoryRaises : Prop :=
  ∀ s : State, s.runState = .running → s.pc.toNat < s.memSize.val → s.cell s.pc.toNat ≠ 0xFF →
    (s.memSize.val ≤ s.pc.toNat + 2 → step s = .next s.afterFault) ∧
    (s.pc.toNat + 2 < s.memSize.val →
      s.fetchBytes = [s.cell s.pc.toNat, s.cell (s.pc.toNat + 1), s.cell (s.pc.toNat + 2)])

/-- No fetch and no data address wraps: at 65534 and 65535 an opcode other than HALT faults for every MEMSIZE, and the
cells of `A = 255` are 255 and 256, or do not exist (20_memory.md, section 1, decision D8). -/
def Obligations.AddressesNeverWrap : Prop :=
  (∀ s : State, s.runState = .running → 65534 ≤ s.pc.toNat → s.cell s.pc.toNat ≠ 0xFF →
    step s = .next s.afterFault) ∧
  (∀ (s : State) (r : Byte), s.memSize.val ≤ 256 →
    exec (.loadw r 255) s = .next s.afterFault ∧ exec (.store r 255) s = .next s.afterFault) ∧
  (∀ (s : State) (r : Byte), 257 ≤ s.memSize.val → r.toNat ≤ 2 →
    exec (.loadw r 255) s = .next (s.afterResult r (BitVec.ofNat 16 ((s.cell 255).toNat + 256 * (s.cell 256).toNat))))

/-! ## The run state and the failure -/

/-- Rule R29 (decision D9): only `RUNNING` has a step; `HALTED` is entered by HALT and by nothing else, `FAULTED` by
`OutOfBounds` and by nothing else, and it records that name. -/
def Obligations.RunStateChangesOnlyByHaltAndFailure : Prop :=
  ∀ s t : State, step s = .next t →
    s.runState = .running ∧
    (t.runState = .halted ↔ s.pc.toNat < s.memSize.val ∧ s.cell s.pc.toNat = 0xFF) ∧
    (∀ f, t.runState = .faulted f ↔ f = .outOfBounds ∧ s.outOfBoundsSituation)

/-- In the terminal run states `step` answers the fault that names the state: the model's own way to say that there is
no step (log 4; 10_state.md, section 3). -/
def Obligations.TerminalStatesAnswerNamedFaults : Prop :=
  ∀ s : State, (s.runState = .halted → step s = .fault .runHalted) ∧
    (∀ f, s.runState = .faulted f → step s = .fault (.runFaulted f))

/-- Rule R181 (register ids by decision D7): a step raises `OutOfBounds` in exactly the six situations. -/
def Obligations.OutOfBoundsInExactlySixSituations : Prop :=
  ∀ s : State, s.runState = .running →
    ((∃ t, step s = .next t ∧ t.runState = .faulted .outOfBounds) ↔ s.outOfBoundsSituation)

/-- Rule R184 (decision D9): the failing step changes no register and no cell, the program counter included, the run
state records the failure, and no further step is taken. -/
def Obligations.FailingStepChangesRunStateOnly : Prop :=
  ∀ s : State, s.runState = .running → s.outOfBoundsSituation →
    ∃ t, step s = .next t ∧ t.pc = s.pc ∧ t.r1 = s.r1 ∧ t.r2 = s.r2 ∧ t.mem = s.mem ∧ t.memSize = s.memSize ∧
      t.runState = .faulted .outOfBounds ∧ ∀ u, step t ≠ .next u

/-- Rule R183: nothing else is a failure: outside the six situations the step completes, in `HALTED` for HALT and in
`RUNNING` for every other instruction. -/
def Obligations.NothingElseIsAFailure : Prop :=
  ∀ s : State, s.runState = .running → ¬ s.outOfBoundsSituation →
    ∃ t, step s = .next t ∧ t.runState = if s.cell s.pc.toNat = 0xFF then .halted else .running

/-! ## The instructions -/

/-- Rule R20 (ids 3 to 255 by decision D7): the three ids name the three registers, and an instruction that uses
another id as a register operand raises `OutOfBounds`. -/
def Obligations.RegisterIdsNameThreeRegisters : Prop :=
  (∀ s : State, (regOperand 0).map s.readReg = some s.pc ∧ (regOperand 1).map s.readReg = some s.r1 ∧
    (regOperand 2).map s.readReg = some s.r2) ∧
  (∀ b : Byte, 3 ≤ b.toNat → regOperand b = none ∧ ∀ (s : State) (c : Byte),
    exec (.loadw b c) s = .next s.afterFault ∧ exec (.store b c) s = .next s.afterFault ∧
    exec (.add b c) s = .next s.afterFault ∧ exec (.add c b) s = .next s.afterFault ∧
    exec (.sub b c) s = .next s.afterFault ∧ exec (.sub c b) s = .next s.afterFault)

/-- Rule R140: LOADW. -/
def Obligations.LoadwLoadsWord : Prop :=
  ∀ (s : State) (r a : Byte),
    decode [0x01, r, a] = .ok (.loadw r a, []) ∧
    (r.toNat ≤ 2 → dataAddress a + 1 < s.memSize.val →
      exec (.loadw r a) s = .next (s.afterResult r
        (BitVec.ofNat 16 ((s.cell (dataAddress a)).toNat + 256 * (s.cell (dataAddress a + 1)).toNat)))) ∧
    (2 < r.toNat ∨ s.memSize.val ≤ dataAddress a + 1 → exec (.loadw r a) s = .next s.afterFault)

/-- Rule R145: STORE. That the two cells then hold the word needs the memory to be in canonical form, which every step
keeps. -/
def Obligations.StoreStoresWord : Prop :=
  ∀ (s : State) (r a : Byte),
    decode [0x02, r, a] = .ok (.store r a, []) ∧
    (Memory.wf s.mem = true → r.toNat ≤ 2 → dataAddress a + 1 < s.memSize.val →
      ∃ t, exec (.store r a) s = .next t ∧ t.pc = s.pc + 3 ∧ t.r1 = s.r1 ∧ t.r2 = s.r2 ∧
        t.runState = s.runState ∧ t.memSize = s.memSize ∧
        (t.cell (dataAddress a)).toNat = (s.regAt r).toNat % 256 ∧
        (t.cell (dataAddress a + 1)).toNat = (s.regAt r).toNat / 256 ∧
        ∀ x, x ≠ dataAddress a → x ≠ dataAddress a + 1 → t.cell x = s.cell x) ∧
    (2 < r.toNat ∨ s.memSize.val ≤ dataAddress a + 1 → exec (.store r a) s = .next s.afterFault)

/-- Rule R160: ADD, wrapping by decision D1. -/
def Obligations.AddAddsModuloWord : Prop :=
  ∀ (s : State) (ra rb : Byte),
    decode [0x03, ra, rb] = .ok (.add ra rb, []) ∧
    (ra.toNat ≤ 2 → rb.toNat ≤ 2 →
      exec (.add ra rb) s = .next (s.afterResult ra
        (BitVec.ofNat 16 (((s.regAt ra).toNat + (s.regAt rb).toNat) % 65536)))) ∧
    (2 < ra.toNat ∨ 2 < rb.toNat → exec (.add ra rb) s = .next s.afterFault)

/-- Rule R165: SUB, wrapping by decision D2. -/
def Obligations.SubSubtractsModuloWord : Prop :=
  ∀ (s : State) (ra rb : Byte),
    decode [0x04, ra, rb] = .ok (.sub ra rb, []) ∧
    (ra.toNat ≤ 2 → rb.toNat ≤ 2 →
      exec (.sub ra rb) s = .next (s.afterResult ra
        (BitVec.ofNat 16 (if (s.regAt rb).toNat ≤ (s.regAt ra).toNat
          then (s.regAt ra).toNat - (s.regAt rb).toNat
          else (s.regAt ra).toNat + 65536 - (s.regAt rb).toNat)))) ∧
    (2 < ra.toNat ∨ 2 < rb.toNat → exec (.sub ra rb) s = .next s.afterFault)

/-- Rules R112 and R118 (one cell is enough by decision D17): HALT sets the run state and nothing else, and a step finds
it from its opcode alone, in the last cell of memory too, fetches no operand, and is the last step; where the opcode
fetch is outside memory there is no HALT. -/
def Obligations.HaltEndsRunOnly : Prop :=
  ∀ s : State,
    exec .halt s = .next { s with runState := .halted } ∧
    (∀ t, step { s with runState := .halted } ≠ .next t) ∧
    (s.runState = .running → s.pc.toNat < s.memSize.val → s.cell s.pc.toNat = 0xFF →
      s.fetchBytes = [0xFF] ∧ step s = .next { s with runState := .halted }) ∧
    (s.runState = .running → s.memSize.val ≤ s.pc.toNat → step s = .next s.afterFault)

/-- Rule R119 (decision D5): every reserved opcode advances the program counter and does nothing else, whatever its
value and its operand bytes; its operand fetch can fail. -/
def Obligations.ReservedOpcodesOnlyAdvance : Prop :=
  ∀ (s : State) (op k l : Byte), reservedOpcode op →
    decode [op, k, l] = .ok (.rsvd op k l, []) ∧
    exec (.rsvd op k l) s = .next { s with pc := s.pc + 3 } ∧
    (s.runState = .running → s.pc.toNat < s.memSize.val → s.cell s.pc.toNat = op →
      s.memSize.val ≤ s.pc.toNat + 2 → step s = .next s.afterFault)

/-- Rule R170 (decisions D1, D2, D3): the result written, register 0 as the destination included, differs from the
integer result exactly when the table says so and by as much, and so does the advance. -/
def Obligations.ArithmeticWrapsExactly : Prop :=
  (∀ (s : State) (ra rb : Byte), ra.toNat ≤ 2 → rb.toNat ≤ 2 →
    (∃ v, exec (.add ra rb) s = .next (s.afterResult ra v) ∧ v.toNat =
      if (s.regAt ra).toNat + (s.regAt rb).toNat < 65536 then (s.regAt ra).toNat + (s.regAt rb).toNat
      else (s.regAt ra).toNat + (s.regAt rb).toNat - 65536) ∧
    (∃ v, exec (.sub ra rb) s = .next (s.afterResult ra v) ∧ (v.toNat : Int) =
      if (s.regAt ra).toNat < (s.regAt rb).toNat then ((s.regAt ra).toNat : Int) - (s.regAt rb).toNat + 65536
      else ((s.regAt ra).toNat : Int) - (s.regAt rb).toNat)) ∧
  (∀ s : State, s.advance.pc.toNat = if 65533 ≤ s.pc.toNat then s.pc.toNat - 65533 else s.pc.toNat + 3)

/-- SUB and then ADD of the same two accumulators gives back the first, borrow or not (reason of decision D2). -/
def Obligations.AddUndoesSub : Prop :=
  ∀ (s : State) (ra rb : Byte), (ra = 1 ∧ rb = 2) ∨ (ra = 2 ∧ rb = 1) →
    ∃ t, exec (.sub ra rb) s = .next t ∧ exec (.add ra rb) t = .next { s with pc := s.pc + 6 }

/-! ## Register 0 -/

/-- Rule R116 (decision D6): register 0 as a source is the address of the instruction's own opcode byte. STORE needs the
memory in canonical form, which every step keeps. -/
def Obligations.ReadingRegisterZeroGivesOwnAddress : Prop :=
  (∀ (s : State) (a : Byte), Memory.wf s.mem = true → dataAddress a + 1 < s.memSize.val →
    ∃ t, exec (.store 0 a) s = .next t ∧ t.pc = s.pc + 3 ∧
      (t.cell (dataAddress a)).toNat + 256 * (t.cell (dataAddress a + 1)).toNat = s.pc.toNat) ∧
  (∀ (s : State) (ra : Byte), (ra = 1 ∨ ra = 2) →
    (∃ t, exec (.add ra 0) s = .next t ∧ t.pc = s.pc + 3 ∧
      (t.regAt ra).toNat = ((s.regAt ra).toNat + s.pc.toNat) % 65536) ∧
    (∃ t, exec (.sub ra 0) s = .next t ∧ t.pc = s.pc + 3 ∧
      (t.regAt ra).toNat = ((s.regAt ra).toNat + 65536 - s.pc.toNat) % 65536)) ∧
  (∀ (s : State) (rb : Byte), rb.toNat ≤ 2 →
    (∃ t, exec (.add 0 rb) s = .next t ∧ t.pc.toNat = (s.pc.toNat + (s.regAt rb).toNat + 3) % 65536) ∧
    (∃ t, exec (.sub 0 rb) s = .next t ∧ t.pc.toNat = (s.pc.toNat + 65536 - (s.regAt rb).toNat + 3) % 65536))

/-- A completed instruction whose destination is register 0 transfers control and leaves nothing behind: the accumulators
and memory are as before, no return address is kept, and a target outside memory fails at the next step and not before.
For LOADW the next fetch is 3 above the word loaded (40_cycle_and_control.md, section 2, which the spec marks as its own
derivation, with decision D6). -/
def Obligations.ControlTransferLeavesNothingBehind : Prop :=
  (∀ (i : Instr) (s t : State), s.runState = .running → Instr.destination i = some 0 → exec i s = .next t →
    t.runState = .running →
    t.r1 = s.r1 ∧ t.r2 = s.r2 ∧ t.mem = s.mem ∧ (t.memSize.val ≤ t.pc.toNat → step t = .next t.afterFault)) ∧
  (∀ (s : State) (a : Byte), dataAddress a + 1 < s.memSize.val →
    ∃ t, exec (.loadw 0 a) s = .next t ∧ t.runState = s.runState ∧
      t.pc.toNat = ((s.cell (dataAddress a)).toNat + 256 * (s.cell (dataAddress a + 1)).toNat + 3) % 65536)

/-- The advance: an instruction that completes and does not name register 0 as its destination moves the program
counter by exactly 3 (modulo 2^16, decision D3), HALT and a failing instruction do not move it (10_state.md,
section 2). -/
def Obligations.ProgramCounterAdvancesByThree : Prop :=
  ∀ (i : Instr) (s t : State), s.runState = .running → exec i s = .next t →
    (t.runState = .running → Instr.destination i ≠ some 0 → t.pc.toNat = (s.pc.toNat + 3) % 65536) ∧
    (t.runState ≠ .running → t.pc = s.pc)

/-! ## Memory -/

/-- Rule R54: a word is two cells, low byte first, and encoding and decoding are inverse. The memory is in canonical
form, which every step keeps. -/
def Obligations.WordsAreLittleEndian : Prop :=
  (∀ (s : State) (a : Nat) (v : Word), Memory.wf s.mem = true → a + 1 < s.memSize.val →
    ∃ t, s.writeWord a v = some t ∧ (t.cell a).toNat = v.toNat % 256 ∧ (t.cell (a + 1)).toNat = v.toNat / 256 ∧
      t.readWord a = some v) ∧
  (∀ v : Word, wordOfCells (lowCell v) (highCell v) = v) ∧
  (∀ lo hi : Byte, lowCell (wordOfCells lo hi) = lo ∧ highCell (wordOfCells lo hi) = hi)

/-- STORE and then LOADW at the same address brings the stored word to the register loaded, with 3 added to it if that
is register 0; LOADW of an accumulator and then STORE of it leaves every cell as it was (41_load_store.md, section 3,
which the spec marks as its own derivation). -/
def Obligations.StoreThenLoadRoundTrip : Prop :=
  ∀ (s : State) (a : Byte), Memory.wf s.mem = true → dataAddress a + 1 < s.memSize.val →
    (∀ r q : Byte, r.toNat ≤ 2 → q.toNat ≤ 2 →
      ∃ t, exec (.store r a) s = .next t ∧ exec (.loadw q a) t = .next (t.afterResult q (s.regAt r))) ∧
    (∀ r : Byte, r = 1 ∨ r = 2 →
      ∃ t u, exec (.loadw r a) s = .next t ∧ exec (.store r a) t = .next u ∧ ∀ x, u.cell x = s.cell x)

/-- A STORE to the cells of the next instruction is what the next fetch reads (20_memory.md, section 6;
41_load_store.md, section 2; both marked by the spec as its own derivation). -/
def Obligations.StoreIsSeenByNextFetch : Prop :=
  ∀ (s : State) (r a : Byte), Memory.wf s.mem = true → r.toNat ≤ 2 → dataAddress a = s.pc.toNat + 3 →
    s.pc.toNat + 5 < s.memSize.val → (s.regAt r).toNat % 256 ≠ 255 →
    ∃ t, exec (.store r a) s = .next t ∧
      t.fetchBytes = [BitVec.ofNat 8 ((s.regAt r).toNat % 256), BitVec.ofNat 8 ((s.regAt r).toNat / 256),
        s.cell (s.pc.toNat + 5)]

/-- The frame of LOADW, ADD, SUB, HALT and RSVD: no cell changes, no accumulator but the destination changes, MEMSIZE
stays, and the run state changes only by the failure or HALT (20_memory.md, sections 1, 4 and 7, rules R52, R60, R69;
10_state.md, sections 1, 3 and 4, rules R24, R29, R32; 60_exceptions.md, section 2, rule R184). -/
def Obligations.NonStoringInstructionsFrame : Prop :=
  ∀ (i : Instr) (s t : State), Instr.storeAddress i = none → exec i s = .next t →
    (∀ x, t.cell x = s.cell x) ∧ t.memSize = s.memSize ∧
    (Instr.destination i ≠ some 1 → t.r1 = s.r1) ∧ (Instr.destination i ≠ some 2 → t.r2 = s.r2) ∧
    (t.runState = s.runState ∨ t = s.afterFault ∨ (i = .halt ∧ t = { s with runState := .halted }))

/-- The frame of STORE: the two accumulators and MEMSIZE stay, and every cell but the two stored to; where it fails,
every cell (20_memory.md, sections 1, 4 and 7, rules R52, R58, R60, R69; 41_load_store.md, section 2, rule R145;
10_state.md, sections 1 and 4, rules R24, R32; 60_exceptions.md, section 2, rule R184). -/
def Obligations.StoreFrame : Prop :=
  ∀ (r a : Byte) (s t : State), exec (.store r a) s = .next t →
    t.r1 = s.r1 ∧ t.r2 = s.r2 ∧ t.memSize = s.memSize ∧
    (∀ low, Instr.storeAddress (.store r a) = some low → ∀ x, x ≠ low → x ≠ low + 1 → t.cell x = s.cell x) ∧
    ((t.pc = s.pc + 3 ∧ t.runState = s.runState) ∨ t = s.afterFault)

/-! ## Invariants and runs -/

/-- Every step keeps memory in canonical form and within MEMSIZE (10_state.md, section 4). -/
def Obligations.StepKeepsMemoryInvariant : Prop :=
  ∀ s t : State, s.Inv → step s = .next t → t.Inv

/-- The state after reset meets the invariant (with the log's choices 2 and 3 for what the host owns). -/
def Obligations.ResetMeetsMemoryInvariant : Prop := State.reset.Inv

/-- Rule R210 (decision D18): reset sets the registers to 0 and the run state to `RUNNING`, and changes nothing else;
`State.reset` has those values. -/
def Obligations.ResetZeroesRegistersOnly : Prop :=
  (∀ s : State, s.start.pc = 0 ∧ s.start.r1 = 0 ∧ s.start.r2 = 0 ∧ s.start.runState = .running ∧
    s.start.mem = s.mem ∧ s.start.memSize = s.memSize) ∧
  State.reset = State.reset.start

/-- Rule R34: the state when a run starts, for every MEMSIZE and every mem0, which meets the invariant too. -/
def Obligations.LaunchedMemoryIsTheHosts : Prop :=
  ∀ mem0 : List Byte, mem0.length ≤ 65536 →
    (State.launch mem0).pc = 0 ∧ (State.launch mem0).r1 = 0 ∧ (State.launch mem0).r2 = 0 ∧
    (State.launch mem0).runState = .running ∧ (State.launch mem0).memSize.val = mem0.length ∧
    (∀ a b, mem0[a]? = some b → (State.launch mem0).cell a = b) ∧ (State.launch mem0).Inv

/-- An instruction placed at the program counter as the opcode table numbers it is the one the next step runs, in every
state whose memory can hold it (log 5, log 7). -/
def Obligations.PlacedInstructionIsRunNext : Prop :=
  ∀ (s : State) (w : Nat) (i : Instr), s.Inv → s.pc.toNat + 3 ≤ 65536 → decodeTableWord 24 w = some i →
    step (s.withFetchWord 24 w) = exec i (s.withFetchWord 24 w) ∧ (s.withFetchWord 24 w).Inv

/-- Rule R216: what a run does is determined by MEMSIZE and the memory it starts on. -/
def Obligations.RunsDependOnMemoryOnly : Prop :=
  ∀ (s t : State) (k : Nat), s.mem = t.mem → s.memSize = t.memSize → runSteps k s.start = runSteps k t.start

/-- A run changes only the cells its completed STOREs address (20_memory.md, section 7, which the spec marks as its own
derivation). -/
def Obligations.RunChangesOnlyStoredCells : Prop :=
  ∀ (k : Nat) (s t : State) (a : Nat), runSteps k s = .next t →
    (∀ j < k, ∀ u, runSteps j s = .next u → ¬ u.storesTo a) → t.cell a = s.cell a

/-- No run changes a cell at 257 or above, or MEMSIZE (20_memory.md, section 1, which the spec marks as its own
derivation; 10_state.md, section 4). -/
def Obligations.RunNeverReachesHighCells : Prop :=
  ∀ (k : Nat) (s t : State), runSteps k s = .next t →
    t.memSize = s.memSize ∧ ∀ a, 257 ≤ a → t.cell a = s.cell a

/-- A run that starts at address 0 and in which no instruction writes register 0 ends within MEMSIZE div 3 + 1 steps
(40_cycle_and_control.md, section 5, and conflict C9). -/
def Obligations.RunWithoutTransferEnds : Prop :=
  ∀ s : State, s.runState = .running → s.pc = 0 →
    (∀ k t, runSteps k s = .next t → ¬ t.writesPc) →
    ∃ k t, k ≤ s.memSize.val / 3 + 1 ∧ runSteps k s = .next t ∧ t.runState ≠ .running

/-- A run that starts at address 0, in which no instruction writes register 0, and that ends by a HALT took the HALT's
address divided by 3, plus 1, steps (40_cycle_and_control.md, section 5, which the spec marks as its own
derivation). -/
def Obligations.HaltStepCountIsItsAddress : Prop :=
  ∀ (s t : State) (k : Nat), s.runState = .running → s.pc = 0 → runSteps k s = .next t → t.runState = .halted →
    (∀ j < k, ∀ u, runSteps j s = .next u → ¬ u.writesPc) →
    t.pc.toNat % 3 = 0 ∧ k = t.pc.toNat / 3 + 1
end

