-- ==== Sys2Proof/Laws/Arithmetic.lean ====
section
/-!
SUPPORT. The integers the ALU computes, narrowed to a register, are the wrapping operations on words (rules R22, R170);
what the bytes of a word are as numbers (rule R54).
-/

namespace Sys2Proof.Laws

open Sys2Proof.Machine

@[simp] theorem narrow_toNat (v : Word) : narrow (v.toNat : Int) = v := by
  simp [narrow]

theorem narrow_aluAdd (a b : Word) : narrow (aluAdd a b) = a + b := by
  simp only [narrow, aluAdd, BitVec.ofInt_add, BitVec.ofInt_natCast, BitVec.ofNat_toNat, BitVec.setWidth_eq]

theorem narrow_aluSub (a b : Word) : narrow (aluSub a b) = a - b := by
  apply BitVec.eq_of_toInt_eq
  rw [narrow, aluSub, BitVec.toInt_ofInt, BitVec.toInt_sub, BitVec.toInt_eq_toNat_bmod, BitVec.toInt_eq_toNat_bmod]
  simp

theorem advance_pc (s : State) : s.advance.pc = s.pc + 3 := by
  show narrow ((s.pc.toNat : Int) + (Config.ilen : Int)) = s.pc + 3
  exact narrow_aluAdd s.pc 3

theorem lowCell_toNat (v : Word) : (lowCell v).toNat = v.toNat % 256 := by
  simp [lowCell]

theorem highCell_toNat (v : Word) : (highCell v).toNat = v.toNat / 256 := by
  have := v.isLt
  simp only [highCell, BitVec.toNat_ofNat]
  omega

theorem wordOfCells_toNat (lo hi : Byte) : (wordOfCells lo hi).toNat = lo.toNat + 256 * hi.toNat := by
  have := lo.isLt
  have := hi.isLt
  simp only [wordOfCells, BitVec.toNat_ofNat]
  omega

end Sys2Proof.Laws
end

