-- ==== Sys2Proof/Laws/Memory.lean ====
section
/-!
SUPPORT. Memory: a read after a write, and the canonical form, which every memory operation keeps.
-/

namespace Sys2Proof.Laws

open Sys2Proof.Machine

theorem wfFrom_cell {lo : Nat} {c : Host.Cell} {m : Memory} :
    Memory.wfFrom lo (c :: m) = true ↔
      lo ≤ c.1 ∧ c.2 ≠ Config.unlistedCell ∧ Memory.wfFrom (c.1 + 1) m = true := by
  simp [Memory.wfFrom, and_assoc]

theorem wfFrom_mono {lo lo' : Nat} {m : Memory} (h : Memory.wfFrom lo m = true) (hle : lo' ≤ lo) :
    Memory.wfFrom lo' m = true := by
  cases m with
  | nil => rfl
  | cons c m =>
    rw [wfFrom_cell] at h ⊢
    exact ⟨hle.trans h.1, h.2⟩

theorem wf_of_wfFrom {lo : Nat} {m : Memory} (h : Memory.wfFrom lo m = true) : Memory.wf m = true :=
  wfFrom_mono h (Nat.zero_le lo)

/-- A canonical memory lists nothing below where it begins. -/
theorem read_below {m : Memory} : ∀ {lo a : Nat}, Memory.wfFrom lo m = true → a < lo →
    Memory.read m a = Config.unlistedCell := by
  induction m with
  | nil => intros; rfl
  | cons c m ih =>
    intro lo a h hlt
    rw [wfFrom_cell] at h
    simp only [Memory.read]
    rw [if_neg (by omega)]
    exact ih h.2.2 (by omega)

theorem read_cons_other {m : Memory} {a x : Nat} {v : Byte} (hne : x ≠ a) :
    Memory.read (Memory.cons a v m) x = Memory.read m x := by
  unfold Memory.cons
  split
  · rfl
  · simp [Memory.read, hne]

theorem read_cons_same {m : Memory} {a : Nat} {v : Byte} (h : Memory.wfFrom (a + 1) m = true) :
    Memory.read (Memory.cons a v m) a = v := by
  unfold Memory.cons
  split
  · rename_i hv
    rw [hv]
    exact read_below h (Nat.lt_succ_self a)
  · simp [Memory.read]

theorem wfFrom_cons {m : Memory} {lo a : Nat} {v : Byte} (h : Memory.wfFrom (a + 1) m = true) (hle : lo ≤ a) :
    Memory.wfFrom lo (Memory.cons a v m) = true := by
  unfold Memory.cons
  split
  · exact wfFrom_mono h (by omega)
  · rename_i hv
    rw [wfFrom_cell]
    exact ⟨hle, hv, h⟩

/-- A write changes no other cell, whatever form the memory has (rule R60). -/
theorem read_write_other {m : Memory} {a x : Nat} {v : Byte} (hne : x ≠ a) :
    Memory.read (Memory.write m a v) x = Memory.read m x := by
  induction m with
  | nil => exact read_cons_other hne
  | cons c m ih =>
    simp only [Memory.write]
    split
    · exact read_cons_other hne
    · split
      · rename_i _ hc
        rw [read_cons_other hne, Memory.read, if_neg (by omega)]
      · simp only [Memory.read, ih]

theorem read_write_same_from {m : Memory} {a : Nat} {v : Byte} : ∀ {lo : Nat}, Memory.wfFrom lo m = true → lo ≤ a →
    Memory.read (Memory.write m a v) a = v := by
  induction m with
  | nil => intro lo _ _; exact read_cons_same rfl
  | cons c m ih =>
    intro lo h hle
    have hc := wfFrom_cell.mp h
    simp only [Memory.write]
    split
    · rename_i hlt
      exact read_cons_same (wfFrom_cell.mpr ⟨hlt, hc.2⟩)
    · split
      · rename_i _ heq
        exact read_cons_same (by rw [heq]; exact hc.2.2)
      · rename_i hnlt hne
        simp only [Memory.read]
        rw [if_neg hne]
        exact ih hc.2.2 (by omega)

/-- In a canonical memory a read of the cell just written gives what was written (rule R60). -/
theorem read_write_same {m : Memory} {a : Nat} {v : Byte} (h : Memory.wf m = true) :
    Memory.read (Memory.write m a v) a = v :=
  read_write_same_from h (Nat.zero_le a)

theorem wfFrom_write {m : Memory} {a : Nat} {v : Byte} : ∀ {lo : Nat}, Memory.wfFrom lo m = true → lo ≤ a →
    Memory.wfFrom lo (Memory.write m a v) = true := by
  induction m with
  | nil => intro lo _ hle; exact wfFrom_cons rfl hle
  | cons c m ih =>
    intro lo h hle
    have hc := wfFrom_cell.mp h
    simp only [Memory.write]
    split
    · rename_i hlt
      exact wfFrom_cons (wfFrom_cell.mpr ⟨hlt, hc.2⟩) hle
    · split
      · rename_i _ heq
        exact wfFrom_cons (by rw [heq]; exact hc.2.2) hle
      · exact wfFrom_cell.mpr ⟨hc.1, hc.2.1, ih hc.2.2 (by omega)⟩

/-- A write keeps the canonical form. -/
theorem wf_write {m : Memory} {a : Nat} {v : Byte} (h : Memory.wf m = true) :
    Memory.wf (Memory.write m a v) = true :=
  wfFrom_write h (Nat.zero_le a)

theorem below_cell {c : Host.Cell} {m : Memory} {n : Nat} :
    Memory.below n (c :: m) = true ↔ c.1 < n ∧ Memory.below n m = true := by
  rw [Memory.below, List.all_cons, Bool.and_eq_true, decide_eq_true_iff, Memory.below]

theorem below_cons {m : Memory} {a n : Nat} {v : Byte} (h : Memory.below n m = true) (ha : a < n) :
    Memory.below n (Memory.cons a v m) = true := by
  unfold Memory.cons
  split
  · exact h
  · exact below_cell.mpr ⟨ha, h⟩

/-- A write to a cell that memory has lists no cell beyond memory. -/
theorem below_write {m : Memory} {a n : Nat} {v : Byte} (h : Memory.below n m = true) (ha : a < n) :
    Memory.below n (Memory.write m a v) = true := by
  induction m with
  | nil => exact below_cons h ha
  | cons c m ih =>
    have hc := below_cell.mp h
    simp only [Memory.write]
    split
    · exact below_cons h ha
    · split
      · exact below_cons hc.2 ha
      · exact below_cell.mpr ⟨hc.1, ih hc.2⟩

theorem below_mono {m : Memory} {n n' : Nat} (h : Memory.below n m = true) (hle : n ≤ n') :
    Memory.below n' m = true := by
  induction m with
  | nil => rfl
  | cons c m ih =>
    have hc := below_cell.mp h
    exact below_cell.mpr ⟨by omega, ih hc.2⟩

theorem wfFrom_ofBytes {bs : List Byte} : ∀ {a : Nat}, Memory.wfFrom a (Memory.ofBytes a bs) = true := by
  induction bs with
  | nil => intro a; rfl
  | cons b bs ih => intro a; exact wfFrom_cons ih le_rfl

/-- The memory the host fills is in canonical form. -/
theorem wf_ofBytes {bs : List Byte} {a : Nat} : Memory.wf (Memory.ofBytes a bs) = true :=
  wf_of_wfFrom wfFrom_ofBytes

theorem below_ofBytes {n : Nat} {bs : List Byte} : ∀ {a : Nat}, a + bs.length ≤ n →
    Memory.below n (Memory.ofBytes a bs) = true := by
  induction bs with
  | nil => intro a _; rfl
  | cons b bs ih =>
    intro a h
    simp only [List.length_cons] at h
    exact below_cons (ih (by omega)) (by omega)

/-- The memory the host fills reads as the bytes it was filled with. -/
theorem read_ofBytes {bs : List Byte} : ∀ {a k : Nat} (h : k < bs.length),
    Memory.read (Memory.ofBytes a bs) (a + k) = bs[k] := by
  induction bs with
  | nil => intro a k h; simp at h
  | cons b bs ih =>
    intro a k h
    cases k with
    | zero => exact read_cons_same wfFrom_ofBytes
    | succ k =>
      simp only [List.length_cons] at h
      rw [Memory.ofBytes, read_cons_other (by omega), show a + (k + 1) = (a + 1) + k by omega, ih (by omega)]
      rfl

end Sys2Proof.Laws
end

