-- ==== Sys2Proof/Laws/State.lean ====
section
/-!
SUPPORT. One lemma for each field and each update of the state, so that no later proof unfolds a record update.
-/

namespace Sys2Proof.Laws

open Sys2Proof.Machine

variable (s : State) (r : Reg) (v : Int)

/-- MEMSIZE is at most 65536 (rule R7). -/
theorem memSize_le : s.memSize.val ≤ 65536 := Nat.le_of_lt_succ s.memSize.isLt

@[simp] theorem readReg_pc : s.readReg .pc = s.pc := rfl
@[simp] theorem readReg_r1 : s.readReg .r1 = s.r1 := rfl
@[simp] theorem readReg_r2 : s.readReg .r2 = s.r2 := rfl

@[simp] theorem writeReg_pc_pc : (s.writeReg .pc v).pc = narrow v := rfl
@[simp] theorem writeReg_pc_r1 : (s.writeReg .pc v).r1 = s.r1 := rfl
@[simp] theorem writeReg_pc_r2 : (s.writeReg .pc v).r2 = s.r2 := rfl
@[simp] theorem writeReg_r1_pc : (s.writeReg .r1 v).pc = s.pc := rfl
@[simp] theorem writeReg_r1_r1 : (s.writeReg .r1 v).r1 = narrow v := rfl
@[simp] theorem writeReg_r1_r2 : (s.writeReg .r1 v).r2 = s.r2 := rfl
@[simp] theorem writeReg_r2_pc : (s.writeReg .r2 v).pc = s.pc := rfl
@[simp] theorem writeReg_r2_r1 : (s.writeReg .r2 v).r1 = s.r1 := rfl
@[simp] theorem writeReg_r2_r2 : (s.writeReg .r2 v).r2 = narrow v := rfl
@[simp] theorem writeReg_runState : (s.writeReg r v).runState = s.runState := by cases r <;> rfl
@[simp] theorem writeReg_mem : (s.writeReg r v).mem = s.mem := by cases r <;> rfl
@[simp] theorem writeReg_memSize : (s.writeReg r v).memSize = s.memSize := by cases r <;> rfl
@[simp] theorem writeReg_cell (a : Nat) : (s.writeReg r v).cell a = s.cell a := by cases r <;> rfl

/-- A write to one register never changes another (rule R23). -/
theorem readReg_writeReg (q : Reg) :
    (s.writeReg r v).readReg q = if q = r then narrow v else s.readReg q := by
  cases r <;> cases q <;> rfl

@[simp] theorem advance_r1 : s.advance.r1 = s.r1 := rfl
@[simp] theorem advance_r2 : s.advance.r2 = s.r2 := rfl
@[simp] theorem advance_runState : s.advance.runState = s.runState := rfl
@[simp] theorem advance_mem : s.advance.mem = s.mem := rfl
@[simp] theorem advance_memSize : s.advance.memSize = s.memSize := rfl
@[simp] theorem advance_cell (a : Nat) : s.advance.cell a = s.cell a := rfl

@[simp] theorem raiseOutOfBounds_pc : s.raiseOutOfBounds.pc = s.pc := rfl
@[simp] theorem raiseOutOfBounds_r1 : s.raiseOutOfBounds.r1 = s.r1 := rfl
@[simp] theorem raiseOutOfBounds_r2 : s.raiseOutOfBounds.r2 = s.r2 := rfl
@[simp] theorem raiseOutOfBounds_runState : s.raiseOutOfBounds.runState = .faulted .outOfBounds := rfl
@[simp] theorem raiseOutOfBounds_mem : s.raiseOutOfBounds.mem = s.mem := rfl
@[simp] theorem raiseOutOfBounds_memSize : s.raiseOutOfBounds.memSize = s.memSize := rfl
@[simp] theorem raiseOutOfBounds_cell (a : Nat) : s.raiseOutOfBounds.cell a = s.cell a := rfl

@[simp] theorem start_pc : s.start.pc = 0 := rfl
@[simp] theorem start_r1 : s.start.r1 = 0 := rfl
@[simp] theorem start_r2 : s.start.r2 = 0 := rfl
@[simp] theorem start_runState : s.start.runState = .running := rfl
@[simp] theorem start_mem : s.start.mem = s.mem := rfl
@[simp] theorem start_memSize : s.start.memSize = s.memSize := rfl

@[simp] theorem afterResult_runState (b : Byte) (w : Word) : (s.afterResult b w).runState = s.runState := rfl
@[simp] theorem afterResult_mem (b : Byte) (w : Word) : (s.afterResult b w).mem = s.mem := rfl
@[simp] theorem afterResult_memSize (b : Byte) (w : Word) : (s.afterResult b w).memSize = s.memSize := rfl

@[simp] theorem afterFault_runState : s.afterFault.runState = .faulted .outOfBounds := rfl
@[simp] theorem afterFault_mem : s.afterFault.mem = s.mem := rfl
@[simp] theorem afterFault_memSize : s.afterFault.memSize = s.memSize := rfl

end Sys2Proof.Laws
end

