-- ==== Sys2Proof/Laws/Ops.lean ====
section
/-!
SUPPORT. One lemma for each shared operation that says once everything it can do; later proofs cite it and do not
unfold the operation.
-/

namespace Sys2Proof.Laws

open Sys2Proof.Machine

/-- The three operand bytes that name a register (rule R20). -/
theorem regOperand_eq_some {b : Byte} {r : Reg} (h : regOperand b = some r) :
    (b = 0 ∧ r = .pc) ∨ (b = 1 ∧ r = .r1) ∨ (b = 2 ∧ r = .r2) := by
  unfold regOperand at h
  split at h
  · cases h; exact .inl ⟨‹_›, rfl⟩
  · split at h
    · cases h; exact .inr (.inl ⟨‹_›, rfl⟩)
    · split at h
      · cases h; exact .inr (.inr ⟨‹_›, rfl⟩)
      · cases h

theorem regOperand_eq_none {b : Byte} : regOperand b = none ↔ 2 < b.toNat := by
  have key : ∀ n : Byte, b = n ↔ b.toNat = n.toNat := fun n => BitVec.toNat_inj.symm
  have h0 : (0 : Byte).toNat = 0 := rfl
  have h1 : (1 : Byte).toNat = 1 := rfl
  have h2 : (2 : Byte).toNat = 2 := rfl
  simp only [regOperand, key, h0, h1, h2]
  split
  · simp; omega
  · split
    · simp; omega
    · split
      · simp; omega
      · simp; omega

theorem regOperand_of_le {b : Byte} (h : b.toNat ≤ 2) : ∃ r, regOperand b = some r :=
  Option.ne_none_iff_exists'.mp fun hn => absurd (regOperand_eq_none.mp hn) (by omega)

/-- Reading the register a byte names is reading `x[b]`. -/
theorem readReg_of_regOperand {b : Byte} {r : Reg} (h : regOperand b = some r) (s : State) :
    s.readReg r = s.regAt b := by
  obtain ⟨rfl, rfl⟩ | ⟨rfl, rfl⟩ | ⟨rfl, rfl⟩ := regOperand_eq_some h <;> rfl

theorem advance_eq (s : State) : s.advance = { s with pc := s.pc + 3 } := by
  show State.mk (State.advance _).pc _ _ _ _ _ = _
  rw [advance_pc]

/-- Writing the register a byte names and then advancing is the result state of the claims. -/
theorem advance_writeReg {b : Byte} {r : Reg} (h : regOperand b = some r) (s : State) (v : Int) :
    (s.writeReg r v).advance = s.afterResult b (narrow v) := by
  obtain ⟨rfl, rfl⟩ | ⟨rfl, rfl⟩ | ⟨rfl, rfl⟩ := regOperand_eq_some h
  · rw [advance_eq]; rfl
  · rw [advance_eq]; rfl
  · rw [advance_eq]; rfl

/-- What the end of an operation can answer: it always answers a next state. -/
theorem completeStep_next {s t : State} {operation : Option State} :
    completeStep s operation = .next t ↔
      (operation = none ∧ t = s.raiseOutOfBounds) ∨ (∃ u, operation = some u ∧ t = u.advance) := by
  cases operation <;> simp [completeStep, eq_comm]

theorem readCell_eq_some {s : State} {a : Nat} {v : Byte} :
    s.readCell a = some v ↔ a < s.memSize.val ∧ s.cell a = v := by
  simp [State.readCell, State.inRange]

theorem readCell_eq_none {s : State} {a : Nat} : s.readCell a = none ↔ s.memSize.val ≤ a := by
  simp [State.readCell, State.inRange]

theorem readWord_eq_some {s : State} {a : Nat} {v : Word} :
    s.readWord a = some v ↔ a + 1 < s.memSize.val ∧ wordOfCells (s.cell a) (s.cell (a + 1)) = v := by
  simp only [State.readWord, State.inRange]
  split <;> simp <;> omega

theorem readWord_eq_none {s : State} {a : Nat} : s.readWord a = none ↔ s.memSize.val ≤ a + 1 := by
  simp only [State.readWord, State.inRange]
  split <;> simp <;> omega

theorem writeWord_eq_none {s : State} {a : Nat} {v : Word} : s.writeWord a v = none ↔ s.memSize.val ≤ a + 1 := by
  simp only [State.writeWord, State.inRange]
  split <;> simp <;> omega

/-- A completed word write changes memory and nothing else, and needs both cells (rules R10, R58). -/
theorem writeWord_eq_some {s t : State} {a : Nat} {v : Word} :
    s.writeWord a v = some t ↔ a + 1 < s.memSize.val ∧
      { s with mem := Memory.write (Memory.write s.mem a (lowCell v)) (a + 1) (highCell v) } = t := by
  simp only [State.writeWord, State.inRange]
  split <;> simp <;> omega

/-- A completed word write changes no cell but its two (rule R60). -/
theorem writeWord_cell_other {s t : State} {a x : Nat} {v : Word} (h : s.writeWord a v = some t)
    (h0 : x ≠ a) (h1 : x ≠ a + 1) : t.cell x = s.cell x := by
  obtain ⟨-, rfl⟩ := writeWord_eq_some.mp h
  simp only [State.cell]
  rw [read_write_other h1, read_write_other h0]

/-- The low cell a word write leaves. -/
theorem writeWord_cell_low {s t : State} {a : Nat} {v : Word} (hwf : Memory.wf s.mem = true)
    (h : s.writeWord a v = some t) : t.cell a = lowCell v := by
  obtain ⟨-, rfl⟩ := writeWord_eq_some.mp h
  simp only [State.cell]
  rw [read_write_other (by omega), read_write_same hwf]

/-- The high cell a word write leaves. -/
theorem writeWord_cell_high {s t : State} {a : Nat} {v : Word} (hwf : Memory.wf s.mem = true)
    (h : s.writeWord a v = some t) : t.cell (a + 1) = highCell v := by
  obtain ⟨-, rfl⟩ := writeWord_eq_some.mp h
  exact read_write_same (wf_write hwf)

/-- A word write keeps the canonical form and lists no cell beyond memory. -/
theorem writeWord_memory {s t : State} {a : Nat} {v : Word} (h : s.writeWord a v = some t)
    (hwf : Memory.wf s.mem = true) (hb : Memory.below s.memSize.val s.mem = true) :
    Memory.wf t.mem = true ∧ Memory.below t.memSize.val t.mem = true := by
  obtain ⟨hr, rfl⟩ := writeWord_eq_some.mp h
  exact ⟨wf_write (wf_write hwf), below_write (below_write hb (Nat.lt_of_succ_lt hr)) hr⟩

/-- What LOADW's operation can do. -/
theorem loadOperation_eq_some {s t : State} {b1 b2 : Byte} :
    loadOperation s b1 b2 = some t ↔ ∃ r v, regOperand b1 = some r ∧ s.readWord (dataAddress b2) = some v ∧
      t = s.writeReg r v.toNat := by
  unfold loadOperation
  cases regOperand b1 <;> cases s.readWord (dataAddress b2) <;> simp [eq_comm]

theorem loadOperation_eq_none {s : State} {b1 b2 : Byte} :
    loadOperation s b1 b2 = none ↔ 2 < b1.toNat ∨ s.memSize.val ≤ dataAddress b2 + 1 := by
  rw [← regOperand_eq_none, ← readWord_eq_none]
  unfold loadOperation
  cases regOperand b1 <;> cases s.readWord (dataAddress b2) <;> simp

/-- What STORE's operation can do. -/
theorem storeOperation_eq_some {s t : State} {b1 b2 : Byte} :
    storeOperation s b1 b2 = some t ↔
      ∃ r, regOperand b1 = some r ∧ s.writeWord (dataAddress b2) (s.readReg r) = some t := by
  unfold storeOperation
  cases regOperand b1 <;> simp

theorem storeOperation_eq_none {s : State} {b1 b2 : Byte} :
    storeOperation s b1 b2 = none ↔ 2 < b1.toNat ∨ s.memSize.val ≤ dataAddress b2 + 1 := by
  rw [← regOperand_eq_none]
  unfold storeOperation
  cases regOperand b1 with
  | none => simp
  | some r => simp [writeWord_eq_none]

/-- What the operation of ADD and SUB can do. -/
theorem aluOperation_eq_some {f : Word → Word → Int} {s t : State} {b1 b2 : Byte} :
    aluOperation f s b1 b2 = some t ↔ ∃ ra rb, regOperand b1 = some ra ∧ regOperand b2 = some rb ∧
      t = s.writeReg ra (f (s.readReg ra) (s.readReg rb)) := by
  unfold aluOperation
  cases regOperand b1 <;> cases regOperand b2 <;> simp [eq_comm]

theorem aluOperation_eq_none {f : Word → Word → Int} {s : State} {b1 b2 : Byte} :
    aluOperation f s b1 b2 = none ↔ 2 < b1.toNat ∨ 2 < b2.toNat := by
  rw [← regOperand_eq_none, ← regOperand_eq_none (b := b2)]
  unfold aluOperation
  cases regOperand b1 <;> cases regOperand b2 <;> simp

theorem hostWrite_memory {s : State} {a : Nat} {b : Byte} (hwf : Memory.wf s.mem = true)
    (hb : Memory.below s.memSize.val s.mem = true) :
    Memory.wf (s.hostWrite a b).mem = true ∧
      Memory.below (s.hostWrite a b).memSize.val (s.hostWrite a b).mem = true := by
  unfold State.hostWrite
  split
  · exact ⟨wf_write hwf, below_write hb ‹_›⟩
  · exact ⟨hwf, hb⟩

/-- Giving memory more cells keeps what it lists within it. -/
theorem growTo_memory {s : State} {n : Nat} (hwf : Memory.wf s.mem = true)
    (hb : Memory.below s.memSize.val s.mem = true) :
    Memory.wf (s.growTo n).mem = true ∧ Memory.below (s.growTo n).memSize.val (s.growTo n).mem = true := by
  have := memSize_le s
  unfold State.growTo
  split
  · refine ⟨hwf, below_mono hb ?_⟩
    split
    · show s.memSize.val ≤ n; omega
    · exact this
  · exact ⟨hwf, hb⟩

theorem hostWriteBytes_memory {bs : List Byte} : ∀ {s : State} {a : Nat}, Memory.wf s.mem = true →
    Memory.below s.memSize.val s.mem = true → Memory.wf (s.hostWriteBytes a bs).mem = true ∧
      Memory.below (s.hostWriteBytes a bs).memSize.val (s.hostWriteBytes a bs).mem = true := by
  induction bs with
  | nil => intro s a hwf hb; exact ⟨hwf, hb⟩
  | cons b bs ih =>
    intro s a hwf hb
    have h := hostWrite_memory (a := a) (b := b) hwf hb
    exact ih h.1 h.2

end Sys2Proof.Laws
end

