-- ==== Sys2Proof/Laws/PerInstr.lean ====
section
/-!
SUPPORT. The per-instruction family: the shape of an instruction's encoding, as many bytes as the cycle fetches for it
(rules R52, R89), the first of them HALT's opcode for HALT alone (rule R112).
-/

namespace Sys2Proof.Laws.EncodingShape

/-- The encoding of a well-formed instruction has the length the cycle fetches, and begins with HALT's opcode exactly
if it is HALT. -/
def Statement (i : Instr) : Prop :=
  i.WellFormed → (encode i).length = i.fetchedBytes ∧ ((encode i).head? = some opHalt ↔ i = .halt)

theorem loadw (r a : Byte) : Statement (.loadw r a) := fun _ => ⟨rfl, by simp [encode, opLoadw, opHalt]⟩

theorem store (r a : Byte) : Statement (.store r a) := fun _ => ⟨rfl, by simp [encode, opStore, opHalt]⟩

theorem add (ra rb : Byte) : Statement (.add ra rb) := fun _ => ⟨rfl, by simp [encode, opAdd, opHalt]⟩

theorem sub (ra rb : Byte) : Statement (.sub ra rb) := fun _ => ⟨rfl, by simp [encode, opSub, opHalt]⟩

theorem halt : Statement .halt := fun _ => ⟨rfl, by simp [encode, opHalt]⟩

theorem rsvd (op k l : Byte) : Statement (.rsvd op k l) := by
  intro h
  refine ⟨rfl, ?_⟩
  have hop : op ≠ opHalt := by
    rintro rfl
    exact absurd (show reservedOpcode opHalt from h) (by decide)
  simp [encode, hop]

end Sys2Proof.Laws.EncodingShape
end

