-- ==== Sys2Proof/Laws/Step.lean ====
section
/-!
SUPPORT. What an instruction, a fetch, a step and a run can do, each said once.
-/

namespace Sys2Proof.Laws

open Sys2Proof.Machine

/-- What an instruction's effect can be: the failure, HALT, an advance alone, a result in a register, or a word
stored. -/
inductive Effect (i : Instr) (s t : State) : Prop where
  | raised (h : t = s.raiseOutOfBounds)
  | ended (hi : i = .halt) (h : t = { s with runState := .halted })
  | nothing (op k l : Byte) (hi : i = .rsvd op k l) (h : t = s.advance)
  | result (b : Byte) (v : Word) (hi : Instr.destination i = some b) (hb : b.toNat ≤ 2) (h : t = s.afterResult b v)
  | stored (r a : Byte) (u : State) (hi : i = .store r a) (hr : r.toNat ≤ 2)
      (hu : s.writeWord (dataAddress a) (s.regAt r) = some u) (h : t = u.advance)

theorem regOperand_le {b : Byte} {r : Reg} (h : regOperand b = some r) : b.toNat ≤ 2 := by
  obtain ⟨rfl, -⟩ | ⟨rfl, -⟩ | ⟨rfl, -⟩ := regOperand_eq_some h <;> decide

/-- Everything an instruction can do. -/
theorem exec_effect {i : Instr} {s t : State} (h : exec i s = .next t) : Effect i s t := by
  cases i with
  | loadw r a =>
    obtain ⟨-, rfl⟩ | ⟨u, hu, rfl⟩ := completeStep_next.mp h
    · exact .raised rfl
    · obtain ⟨q, v, hq, -, rfl⟩ := loadOperation_eq_some.mp hu
      exact .result r _ rfl (regOperand_le hq) (advance_writeReg hq s _)
  | store r a =>
    obtain ⟨-, rfl⟩ | ⟨u, hu, rfl⟩ := completeStep_next.mp h
    · exact .raised rfl
    · obtain ⟨q, hq, hw⟩ := storeOperation_eq_some.mp hu
      rw [readReg_of_regOperand hq] at hw
      exact .stored r a u rfl (regOperand_le hq) hw rfl
  | add ra rb =>
    obtain ⟨-, rfl⟩ | ⟨u, hu, rfl⟩ := completeStep_next.mp h
    · exact .raised rfl
    · obtain ⟨qa, qb, ha, -, rfl⟩ := aluOperation_eq_some.mp hu
      exact .result ra _ rfl (regOperand_le ha) (advance_writeReg ha s _)
  | sub ra rb =>
    obtain ⟨-, rfl⟩ | ⟨u, hu, rfl⟩ := completeStep_next.mp h
    · exact .raised rfl
    · obtain ⟨qa, qb, ha, -, rfl⟩ := aluOperation_eq_some.mp hu
      exact .result ra _ rfl (regOperand_le ha) (advance_writeReg ha s _)
  | halt =>
    cases h
    exact .ended rfl rfl
  | rsvd op k l =>
    cases h
    exact .nothing op k l rfl rfl

/-- Every instruction answers a next state in every state (rule R87). -/
theorem exec_total (i : Instr) (s : State) : ∃ t, exec i s = .next t := by
  have key : ∀ o, ∃ t, completeStep s o = .next t := fun o => by cases o <;> exact ⟨_, rfl⟩
  cases i with
  | loadw r a => exact key _
  | store r a => exact key _
  | add ra rb => exact key _
  | sub ra rb => exact key _
  | halt => exact ⟨_, rfl⟩
  | rsvd op k l => exact ⟨_, rfl⟩

/-- What a fetch can find (rules R111 to R113). -/
theorem fetchBytes_cases (s : State) :
    (s.memSize.val ≤ s.pc.toNat ∧ s.fetchBytes = []) ∨
    (s.pc.toNat < s.memSize.val ∧ s.cell s.pc.toNat = opHalt ∧ s.fetchBytes = [opHalt]) ∨
    (s.pc.toNat < s.memSize.val ∧ s.cell s.pc.toNat ≠ opHalt ∧ s.memSize.val ≤ s.pc.toNat + 2 ∧
      s.fetchBytes = [s.cell s.pc.toNat]) ∨
    (s.pc.toNat + 2 < s.memSize.val ∧ s.cell s.pc.toNat ≠ opHalt ∧
      s.fetchBytes = [s.cell s.pc.toNat, s.cell (s.pc.toNat + 1), s.cell (s.pc.toNat + 2)]) := by
  unfold State.fetchBytes
  cases h : s.readCell s.pc.toNat with
  | none => exact .inl ⟨readCell_eq_none.mp h, rfl⟩
  | some b0 =>
    obtain ⟨hlt, rfl⟩ := readCell_eq_some.mp h
    by_cases hb : s.cell s.pc.toNat = opHalt
    · exact .inr (.inl ⟨hlt, hb, by simp [hb]⟩)
    · by_cases hr : s.inRange s.pc.toNat 3
      · exact .inr (.inr (.inr ⟨hr, hb, by simp only [if_neg hb, if_pos hr]⟩))
      · refine .inr (.inr (.inl ⟨hlt, hb, ?_, by simp only [if_neg hb, if_neg hr]⟩))
        simp only [State.inRange] at hr
        omega

theorem decode_halt (rest : List Byte) : decode (opHalt :: rest) = .ok (.halt, rest) := rfl

theorem decode_triple {b0 : Byte} (h : b0 ≠ opHalt) (b1 b2 : Byte) (rest : List Byte) :
    decode (b0 :: b1 :: b2 :: rest) = .ok (decodeTriple b0 b1 b2, rest) := by
  simp [decode, h]

theorem decode_short {b0 : Byte} (h : b0 ≠ opHalt) : decode [b0] = .error .noOperands := by
  simp [decode, h]

/-- What a step of a `RUNNING` state answers, by what the fetch finds. -/
theorem step_running {s : State} (h : s.runState = .running) :
    step s = match s.fetched with
      | some i => exec i s
      | none => .next s.raiseOutOfBounds := by
  simp only [step, h, State.fetched]
  cases decode s.fetchBytes <;> rfl

/-- Only a `RUNNING` state has a step (rule R110). -/
theorem running_of_step {s t : State} (h : step s = .next t) : s.runState = .running := by
  unfold step at h
  cases hr : s.runState with
  | running => rfl
  | halted => rw [hr] at h; cases h
  | faulted f => rw [hr] at h; cases h

/-- Everything a step can do: it raised at the fetch, or it executed the instruction it fetched. -/
theorem step_cases {s t : State} (h : step s = .next t) :
    (s.fetched = none ∧ t = s.raiseOutOfBounds) ∨ ∃ i, s.fetched = some i ∧ exec i s = .next t := by
  rw [step_running (running_of_step h)] at h
  cases hf : s.fetched with
  | none => rw [hf] at h; cases h; exact .inl ⟨rfl, rfl⟩
  | some i => rw [hf] at h; exact .inr ⟨i, rfl, h⟩

theorem runSteps_zero (s : State) : runSteps 0 s = .next s := rfl

theorem runSteps_succ (k : Nat) (s : State) :
    runSteps (k + 1) s = match step s with
      | .next t => runSteps k t
      | .fault r => .fault r
      | .refused r => .refused r := rfl

/-- One step of a run of the host's interface. -/
theorem coreRun_succ {M : Host.Core} {k : Nat} {s : M.State} :
    (∀ t, M.step s = .next t → M.run (k + 1) s = M.run k t) ∧
    (∀ r, M.step s = .fault r → M.run (k + 1) s = .fault r) ∧
    (∀ r, M.step s = .refused r → M.run (k + 1) s = .refused r) := by
  refine ⟨?_, ?_, ?_⟩ <;> intro _ h <;> simp only [Host.Core.run, h]

/-- The runs of the claims are the runs of the host's interface. -/
theorem runSteps_eq_run : ∀ (k : Nat) (s : State), Host.Core.run Sys2Proof.core k s = runSteps k s
  | 0, _ => rfl
  | k + 1, s => by
    have ih := runSteps_eq_run k
    cases h : step s with
    | next t => exact (coreRun_succ.1 t h).trans ((ih t).trans (by rw [runSteps, h]))
    | fault r => exact (coreRun_succ.2.1 r h).trans (by rw [runSteps, h]; rfl)
    | refused r => exact (coreRun_succ.2.2 r h).trans (by rw [runSteps, h]; rfl)

/-- A run of `k + 1` steps is a step and then a run of `k`. -/
theorem runSteps_succ_next {k : Nat} {s t : State} :
    runSteps (k + 1) s = .next t ↔ ∃ u, step s = .next u ∧ runSteps k u = .next t := by
  rw [runSteps_succ]
  cases step s <;> simp

/-- What every step keeps, every run keeps. -/
theorem run_keeps {P : State → Prop} (hstep : ∀ s t, P s → step s = .next t → P t) :
    ∀ {k : Nat} {s t : State}, P s → runSteps k s = .next t → P t := by
  intro k
  induction k with
  | zero => intro s t hs h; cases h; exact hs
  | succ k ih =>
    intro s t hs h
    obtain ⟨u, hu, ht⟩ := runSteps_succ_next.mp h
    exact ih (hstep s u hs hu) ht

end Sys2Proof.Laws
end

