-- ==== Sys2Proof/Tests/Slice0.lean ====
section
/-!
SUPPORT. The model's own tests. Expected results stand in spec/95_test_vectors.md (each test names its vector) or are
words written out from rule R84's patterns; each `witness_` theorem shows a state and operands that meet all hypotheses
of the statement it is named after, at the edges of its clauses.
-/

namespace Sys2Proof.Tests

open Sys2Proof.Machine

/-- A running machine on the given cells. -/
def cpu (mem : List Byte) (pc r1 r2 : Word) : State :=
  { State.launch mem with pc := pc, r1 := r1, r2 := r2 }

/-- A running machine with `n` cells of zero. -/
def blank (n : Fin 65537) (pc : Word) : State := { State.reset with memSize := n, pc := pc }

/-- The state a step answers. -/
def stateOf : Host.Outcome State Fault Refusal → Option State
  | .next t => some t
  | .fault _ => none
  | .refused _ => none

/-- The registers and the run state of the state one step leads to. -/
def stepView (s : State) : Option (Word × Word × Word × RunState) :=
  (stateOf (step s)).map fun t => (t.pc, t.r1, t.r2, t.runState)

/-- The cells of the state one step leads to. -/
def stepCells (s : State) : Option (List Host.Cell) := (stateOf (step s)).map State.mem

/-- An outcome is the state it is seen to be. -/
theorem next_of_stateOf {o : Host.Outcome State Fault Refusal} {t : State} (h : stateOf o = some t) : o = .next t := by
  cases o <;> simp_all [stateOf]

/-! ## WellFormed: the one check, on the five opcodes it refuses and at its edges -/

theorem test_wellFormed_refuses_defined_opcodes :
    ¬ (Instr.rsvd 0x01 0 0).WellFormed ∧ ¬ (Instr.rsvd 0x02 0 0).WellFormed ∧ ¬ (Instr.rsvd 0x03 0 0).WellFormed ∧
    ¬ (Instr.rsvd 0x04 0 0).WellFormed ∧ ¬ (Instr.rsvd 0xFF 0 0).WellFormed := by decide

theorem test_wellFormed_admits_reserved_opcodes :
    (Instr.rsvd 0x00 0xFF 0xFF).WellFormed ∧ (Instr.rsvd 0x05 0 0).WellFormed ∧ (Instr.rsvd 0xFE 0 0).WellFormed ∧
    (Instr.loadw 0xFF 0xFF).WellFormed := by decide

/-! ## Decoding: words written out bit by bit from rule R84 -/

theorem test_decode_loadw :
    (decode [0b00000001#8, 0b00000010#8, 0b10010000#8]).toOption = some (.loadw 2 0x90, []) := by decide

theorem test_decode_store :
    (decode [0b00000010#8, 0b00000001#8, 0b00001110#8]).toOption = some (.store 1 0x0E, []) := by decide

theorem test_decode_add :
    (decode [0b00000011#8, 0b00000001#8, 0b00000010#8]).toOption = some (.add 1 2, []) := by decide

theorem test_decode_sub :
    (decode [0b00000100#8, 0b00000111#8, 0b00000000#8]).toOption = some (.sub 7 0, []) := by decide

theorem test_decode_halt : (decode [0b11111111#8]).toOption = some (.halt, []) := by decide

theorem test_decode_rsvd :
    (decode [0b01111111#8, 0b00000001#8, 0b00000010#8]).toOption = some (.rsvd 0x7F 1 2, []) := by decide

/-- Section 2.6: the opcode values of the table that select RSVD. -/
theorem test_decode_vectors_reserved :
    ([0x00, 0x05, 0x06, 0x08, 0x10, 0x20, 0x40, 0x7F, 0x80, 0xBF, 0xC0, 0xEF, 0xF0, 0xF8, 0xFC, 0xFD, 0xFE].map
      fun b0 : Byte => (decode [b0, 3, 0xFF]).toOption) =
    ([0x00, 0x05, 0x06, 0x08, 0x10, 0x20, 0x40, 0x7F, 0x80, 0xBF, 0xC0, 0xEF, 0xF0, 0xF8, 0xFC, 0xFD, 0xFE].map
      fun b0 : Byte => some (.rsvd b0 3 0xFF, [])) := by decide

/-- The table's own numbering: "match" numbers, and operands in the low bytes of `W` (rule R81). -/
theorem test_decodeTableWord :
    decodeTableWord 24 0x010110 = some (.loadw 1 0x10) ∧ decodeTableWord 24 0x02020E = some (.store 2 0x0E) ∧
    decodeTableWord 24 0x030102 = some (.add 1 2) ∧ decodeTableWord 24 0x040102 = some (.sub 1 2) ∧
    decodeTableWord 24 0xFF0000 = some .halt ∧ decodeTableWord 24 0xFE0000 = some (.rsvd 0xFE 0 0) ∧
    decodeTableWord 8 0x03 = some (.add 0 0) := by decide

/-- From reset the step runs the word placed: `ADD R1 R2` on registers that are still 0 (V-A6). -/
theorem test_withFetchWord : stepView (State.reset.withFetchWord 24 0x030102) = some (3, 0, 0, .running) ∧
    stepCells (State.reset.withFetchWord 24 0x030102) = some [(0, 3), (1, 1), (2, 2)] := by decide

/-! ## One step: at most two vectors an instruction -/

/-- V-L5: `A + 1 = MEMSIZE - 1` is legal, and the low byte is at the lower address. -/
theorem test_loadw_last_word : (stepView (cpu [0x01, 0x01, 0x02, 0xFF] 0 0 0)).map (fun v => (v.1, v.2.1)) =
    some (3, 65282) := by decide

/-- V-L9: into the program counter, with the wrap of the advance. -/
theorem test_loadw_pc_wraps : (stepView (cpu [0x01, 0x00, 0x06, 0xFF, 0, 0, 0xFD, 0xFF] 0 0 0)).map (fun v => v.1) =
    some 0 := by decide

/-- V-S7: the store overwrites its own operand 2 and the advance still goes to 3. -/
theorem test_store_over_itself : stepView (cpu [0x02, 0x01, 0x02, 0xEE] 0 4660 0) = some (3, 4660, 0, .running) ∧
    stepCells (cpu [0x02, 0x01, 0x02, 0xEE] 0 4660 0) = some [(0, 2), (1, 1), (2, 0x34), (3, 0x12)] := by decide

/-- V-S6: `A + 1 = MEMSIZE` faults, and cell 3, which exists, is not written. -/
theorem test_store_faults_whole :
    stepView (cpu [0x02, 0x01, 0x03, 0xEE] 0 4660 0) = some (0, 4660, 0, .faulted .outOfBounds) ∧
    stepCells (cpu [0x02, 0x01, 0x03, 0xEE] 0 4660 0) = some [(0, 2), (1, 1), (2, 3), (3, 0xEE)] := by decide

/-- V-A7: the same register twice, with a wrap. -/
theorem test_add_doubles : (stepView (cpu [0x03, 0x01, 0x01, 0xFF] 0 32769 0)).map (fun v => (v.1, v.2.1)) =
    some (3, 2) := by decide

/-- V-A11: `ADD PC PC` at 3 goes to 9. -/
theorem test_add_pc_pc : (stepView (cpu [0, 0, 0, 0x03, 0, 0, 0, 0, 0, 0xFF] 3 0 0)).map (fun v => v.1) =
    some 9 := by decide

/-- V-B2: a borrow wraps. -/
theorem test_sub_borrows : (stepView (cpu [0x04, 0x01, 0x02, 0xFF] 0 155 400)).map (fun v => (v.2.1, v.2.2.1)) =
    some (65291, 400) := by decide

/-- V-B12: into the program counter, below zero and back over the top. -/
theorem test_sub_pc_wraps : (stepView (cpu [0x04, 0x00, 0x01, 0xFF] 0 3 0)).map (fun v => (v.1, v.2.1)) =
    some (0, 3) := by decide

/-- V-C1: one cell of memory is enough for HALT. -/
theorem test_halt_one_cell : (stepView (cpu [0xFF] 0 0 0)).map (fun v => (v.1, v.2.2.2)) = some (0, .halted) := by
  decide

/-- V-C2: HALT in the last cell; registers kept, no advance. -/
theorem test_halt_last_cell : (stepView (cpu [0, 0, 0, 0xFF] 3 5 6)).map (fun v => (v.1, v.2.1, v.2.2.1)) =
    some (3, 5, 6) := by decide

/-- V-C5: a reserved opcode with operand bytes that would be out of range. -/
theorem test_rsvd_only_advances : (stepView (cpu [0x05, 0xFF, 0xFF, 0xFF] 0 1 2)).map
    (fun v => (v.1, v.2.1, v.2.2.1, v.2.2.2)) = some (3, 1, 2, .running) := by decide

/-- V-C10: a reserved opcode in the second-last cell faults in its operand fetch. -/
theorem test_rsvd_operand_fetch_faults : (stepView (cpu [0, 0, 0, 0x77, 0] 3 0 0)).map (fun v => (v.1, v.2.2.2)) =
    some (3, .faulted .outOfBounds) := by decide

/-! ## Witnesses -/

theorem witness_DecodeAfterEncodeGivesInstruction : (Instr.rsvd 0x05 3 0xFF).WellFormed := by decide

theorem witness_EncodeAfterDecodeGivesBytes : decode [0xFE, 1, 2, 9] = .ok (.rsvd 0xFE 1 2, [9]) := rfl

theorem witness_IncompleteBytesAreRejected : (0xFE : Byte) ≠ 0xFF := by decide

theorem witness_StepRunsDecodedInstruction :
    (cpu [0x03, 1, 2] 0 10 12).runState = .running ∧ (Instr.add 1 2).WellFormed ∧
    decode (cpu [0x03, 1, 2] 0 10 12).fetchBytes = .ok (.add 1 2, []) := ⟨rfl, trivial, rfl⟩

/-- HALT in the only cell, and an ADD in the last three cells. -/
theorem witness_StepRunsInstructionInMemory :
    ((cpu [0xFF] 0 0 0).runState = .running ∧ Instr.halt.WellFormed ∧ 0 + (encode .halt).length ≤ 1 ∧
      ∀ k b, (encode .halt)[k]? = some b → (cpu [0xFF] 0 0 0).cell (0 + k) = b) ∧
    ((cpu [9, 0x03, 1, 2] 1 0 0).runState = .running ∧ (Instr.add 1 2).WellFormed ∧ 1 + (encode (.add 1 2)).length ≤ 4 ∧
      ∀ k b, (encode (.add 1 2))[k]? = some b → (cpu [9, 0x03, 1, 2] 1 0 0).cell (1 + k) = b) := by
  refine ⟨⟨rfl, trivial, by decide, ?_⟩, ⟨rfl, trivial, by decide, ?_⟩⟩
  · rintro (_ | k) b h
    · cases h; rfl
    · cases h
  · rintro (_ | _ | _ | k) b h
    · cases h; rfl
    · cases h; rfl
    · cases h; rfl
    · cases h

theorem witness_StepRefinesPseudocode :
    State.reset.runState = .running ∧ ({ State.reset with runState := .halted } : State).runState ≠ .running := by decide

/-- MEMSIZE 0 (V-C11) and MEMSIZE 1. -/
theorem witness_OpcodeFetchOutsideMemoryRaises :
    ((cpu [] 0 0 0).runState = .running ∧ (cpu [] 0 0 0).memSize.val ≤ (cpu [] 0 0 0).pc.toNat) ∧
    ((cpu [7] 0 0 0).runState = .running ∧ (cpu [7] 0 0 0).pc.toNat < (cpu [7] 0 0 0).memSize.val) := by decide

/-- Two cells at the program counter, and three. -/
theorem witness_OperandFetchOutsideMemoryRaises :
    ((cpu [0x77, 0] 0 0 0).runState = .running ∧ (0 : Nat) < (cpu [0x77, 0] 0 0 0).memSize.val ∧
      (cpu [0x77, 0] 0 0 0).cell 0 ≠ 0xFF ∧ (cpu [0x77, 0] 0 0 0).memSize.val ≤ 0 + 2) ∧
    ((cpu [0x77, 0, 0] 0 0 0).runState = .running ∧ (cpu [0x77, 0, 0] 0 0 0).cell 0 ≠ 0xFF ∧
      0 + 2 < (cpu [0x77, 0, 0] 0 0 0).memSize.val) := by decide

/-- The largest memory, and the two sizes on either side of cell 256. -/
theorem witness_AddressesNeverWrap :
    ((blank 65536 65534).runState = .running ∧ 65534 ≤ (blank 65536 65534).pc.toNat ∧
      (blank 65536 65534).cell 65534 ≠ 0xFF) ∧
    (blank 256 0).memSize.val ≤ 256 ∧ (257 ≤ (blank 257 0).memSize.val ∧ (2 : Byte).toNat ≤ 2) := by decide

theorem witness_RunStateChangesOnlyByHaltAndFailure :
    step (cpu [0xFF] 0 0 0) = .next { cpu [0xFF] 0 0 0 with runState := .halted } ∧
    step (cpu [] 0 0 0) = .next { cpu [] 0 0 0 with runState := .faulted .outOfBounds } :=
  ⟨next_of_stateOf (by decide), next_of_stateOf (by decide)⟩

theorem witness_TerminalStatesAnswerNamedFaults :
    ({ State.reset with runState := .halted } : State).runState = .halted ∧
    ({ State.reset with runState := .faulted .outOfBounds } : State).runState = .faulted .outOfBounds := ⟨rfl, rfl⟩

theorem witness_OutOfBoundsInExactlySixSituations : State.reset.runState = .running := rfl

/-- The six situations, each at the edge of its condition. -/
theorem witness_FailingStepChangesRunStateOnly :
    (cpu [0, 0, 0] 3 0 0).outOfBoundsSituation ∧ (cpu [0x77, 0] 0 0 0).outOfBoundsSituation ∧
    (cpu [0x01, 0x03, 0, 0xFF] 0 0 0).outOfBoundsSituation ∧ (cpu [0x03, 1, 0x03, 0xFF] 0 1 2).outOfBoundsSituation ∧
    (cpu [0x01, 1, 0x03, 0xFF] 0 7 0).outOfBoundsSituation ∧ (cpu [0x02, 1, 0x03, 0xEE] 0 4660 0).outOfBoundsSituation ∧
    (cpu [0x02, 1, 0x03, 0xEE] 0 4660 0).runState = .running :=
  ⟨by decide, by decide, by decide, by decide, by decide, by decide, by decide⟩

/-- The same opcodes one cell or one register id inside the edge. -/
theorem witness_NothingElseIsAFailure :
    ¬ (cpu [0xFF] 0 0 0).outOfBoundsSituation ∧ ¬ (cpu [0x77, 0, 0] 0 0 0).outOfBoundsSituation ∧
    ¬ (cpu [0x01, 2, 0x02, 0xFF] 0 0 0).outOfBoundsSituation ∧ ¬ (cpu [0x03, 2, 2] 0 1 2).outOfBoundsSituation ∧
    ¬ (cpu [0x02, 0, 0x02, 0xEE] 0 4660 0).outOfBoundsSituation ∧ (cpu [0xFF] 0 0 0).runState = .running :=
  ⟨by decide, by decide, by decide, by decide, by decide, by decide⟩

theorem witness_RegisterIdsNameThreeRegisters : 3 ≤ (3 : Byte).toNat := by decide

/-- The last word of four cells; register id 3; the word one cell further. -/
theorem witness_LoadwLoadsWord :
    ((2 : Byte).toNat ≤ 2 ∧ dataAddress 2 + 1 < (blank 4 0).memSize.val) ∧ 2 < (3 : Byte).toNat ∧
    (blank 4 0).memSize.val ≤ dataAddress 3 + 1 := by decide

theorem witness_StoreStoresWord :
    (Memory.wf (cpu [2, 1, 2, 0xEE] 0 4660 0).mem = true ∧ (1 : Byte).toNat ≤ 2 ∧
      dataAddress 2 + 1 < (cpu [2, 1, 2, 0xEE] 0 4660 0).memSize.val) ∧
    2 < (3 : Byte).toNat ∧ (cpu [2, 1, 2, 0xEE] 0 4660 0).memSize.val ≤ dataAddress 3 + 1 := by decide

theorem witness_AddAddsModuloWord : ((2 : Byte).toNat ≤ 2 ∧ (0 : Byte).toNat ≤ 2) ∧ 2 < (3 : Byte).toNat := by decide

theorem witness_SubSubtractsModuloWord : ((0 : Byte).toNat ≤ 2 ∧ (2 : Byte).toNat ≤ 2) ∧ 2 < (3 : Byte).toNat := by
  decide

/-- HALT in the last cell, and no cell at all. -/
theorem witness_HaltEndsRunOnly :
    ((cpu [0, 0, 0, 0xFF] 3 5 6).runState = .running ∧ 3 < (cpu [0, 0, 0, 0xFF] 3 5 6).memSize.val ∧
      (cpu [0, 0, 0, 0xFF] 3 5 6).cell 3 = 0xFF) ∧
    ((cpu [] 0 0 0).runState = .running ∧ (cpu [] 0 0 0).memSize.val ≤ (cpu [] 0 0 0).pc.toNat) := by decide

/-- The edges of the reserved values, and one in the second-last cell. -/
theorem witness_ReservedOpcodesOnlyAdvance :
    reservedOpcode 0x00 ∧ reservedOpcode 0x05 ∧ reservedOpcode 0xFE ∧
    ((cpu [0, 0, 0, 5, 0] 3 0 0).runState = .running ∧ 3 < (cpu [0, 0, 0, 5, 0] 3 0 0).memSize.val ∧
      (cpu [0, 0, 0, 5, 0] 3 0 0).cell 3 = 0x05 ∧ (cpu [0, 0, 0, 5, 0] 3 0 0).memSize.val ≤ 3 + 2) := by decide

/-- A sum and a difference on each side of the wrap, and the advance too. -/
theorem witness_ArithmeticWrapsExactly :
    (2 : Byte).toNat ≤ 2 ∧ (1 : Byte).toNat ≤ 2 ∧ (0 : Byte).toNat ≤ 2 ∧
    ((cpu [] 65532 1 65534).regAt 2).toNat + ((cpu [] 65532 1 65534).regAt 1).toNat < 65536 ∧
    ¬ ((cpu [] 65533 1 65535).regAt 2).toNat + ((cpu [] 65533 1 65535).regAt 1).toNat < 65536 ∧
    ((cpu [] 65533 1 0).regAt 2).toNat < ((cpu [] 65533 1 0).regAt 1).toNat ∧
    65533 ≤ (cpu [] 65533 1 0).pc.toNat ∧ ¬ 65533 ≤ (cpu [] 65532 1 65534).pc.toNat := by decide

theorem witness_AddUndoesSub : ((1 : Byte) = 1 ∧ (2 : Byte) = 2) ∨ ((1 : Byte) = 2 ∧ (2 : Byte) = 1) := by decide

theorem witness_ReadingRegisterZeroGivesOwnAddress :
    (Memory.wf (cpu [2, 0, 2, 0xEE] 0 0 0).mem = true ∧ dataAddress 2 + 1 < (cpu [2, 0, 2, 0xEE] 0 0 0).memSize.val) ∧
    ((1 : Byte) = 1 ∨ (1 : Byte) = 2) ∧ (2 : Byte).toNat ≤ 2 := by decide

/-- `ADD PC R1` with `R1 = 1` on four cells: the target is the first cell that does not exist. -/
theorem witness_ControlTransferLeavesNothingBehind :
    ((cpu [3, 0, 1, 0xFF] 0 1 0).runState = .running ∧ Instr.destination (.add 0 1) = some 0 ∧
      exec (.add 0 1) (cpu [3, 0, 1, 0xFF] 0 1 0) = .next (cpu [3, 0, 1, 0xFF] 4 1 0) ∧
      (cpu [3, 0, 1, 0xFF] 4 1 0).runState = .running ∧
      (cpu [3, 0, 1, 0xFF] 4 1 0).memSize.val ≤ (cpu [3, 0, 1, 0xFF] 4 1 0).pc.toNat) ∧
    dataAddress 2 + 1 < (cpu [1, 0, 2, 0xFF] 0 0 0).memSize.val :=
  ⟨⟨rfl, rfl, next_of_stateOf (by decide), rfl, by decide⟩, by decide⟩

/-- A completed instruction at the top of the program counter, and HALT. -/
theorem witness_ProgramCounterAdvancesByThree :
    ((blank 65536 65533).runState = .running ∧ exec (.rsvd 0 0 0) (blank 65536 65533) = .next (blank 65536 0) ∧
      (blank 65536 0).runState = .running ∧ Instr.destination (.rsvd 0 0 0) ≠ some 0) ∧
    (exec .halt State.reset = .next { State.reset with runState := .halted } ∧
      ({ State.reset with runState := .halted } : State).runState ≠ .running) :=
  ⟨⟨rfl, next_of_stateOf (by decide), rfl, by decide⟩, ⟨rfl, by decide⟩⟩

theorem witness_WordsAreLittleEndian :
    Memory.wf (cpu [1, 0, 2, 9] 0 0 0).mem = true ∧ 2 + 1 < (cpu [1, 0, 2, 9] 0 0 0).memSize.val := by decide

theorem witness_StoreThenLoadRoundTrip :
    Memory.wf (cpu [1, 0, 2, 9] 0 7 0).mem = true ∧ dataAddress 2 + 1 < (cpu [1, 0, 2, 9] 0 7 0).memSize.val ∧
    (0 : Byte).toNat ≤ 2 ∧ (2 : Byte).toNat ≤ 2 ∧ ((2 : Byte) = 1 ∨ (2 : Byte) = 2) := by decide

/-- Program P5's patch: `04 01` stored over the opcode of the next instruction, which ends memory. -/
theorem witness_StoreIsSeenByNextFetch :
    Memory.wf (cpu [2, 2, 3, 3, 1, 2] 0 0 260).mem = true ∧ (2 : Byte).toNat ≤ 2 ∧
    dataAddress 3 = (cpu [2, 2, 3, 3, 1, 2] 0 0 260).pc.toNat + 3 ∧
    (cpu [2, 2, 3, 3, 1, 2] 0 0 260).pc.toNat + 5 < (cpu [2, 2, 3, 3, 1, 2] 0 0 260).memSize.val ∧
    ((cpu [2, 2, 3, 3, 1, 2] 0 0 260).regAt 2).toNat % 256 ≠ 255 := by decide

/-- One witness for each of the five instructions (V-L1, V-A1, V-B1, V-C1, V-C4). -/
theorem witness_NonStoringInstructionsFrame :
    exec (.loadw 1 6) (cpu [1, 1, 6, 0xFF, 0, 0, 0x34, 0x12] 0 0 0) =
      .next (cpu [1, 1, 6, 0xFF, 0, 0, 0x34, 0x12] 3 4660 0) ∧
    exec (.add 1 2) (cpu [3, 1, 2, 0xFF] 0 10 12) = .next (cpu [3, 1, 2, 0xFF] 3 22 12) ∧
    exec (.sub 1 2) (cpu [4, 1, 2, 0xFF] 0 400 155) = .next (cpu [4, 1, 2, 0xFF] 3 245 155) ∧
    exec .halt (cpu [0xFF] 0 0 0) = .next { cpu [0xFF] 0 0 0 with runState := .halted } ∧
    exec (.rsvd 0 0 0) (cpu [0, 0, 0, 0xFF] 0 1 2) = .next (cpu [0, 0, 0, 0xFF] 3 1 2) ∧
    ∀ i ∈ [Instr.loadw 1 6, .add 1 2, .sub 1 2, .halt, .rsvd 0 0 0], Instr.storeAddress i = none :=
  ⟨next_of_stateOf (by decide), next_of_stateOf (by decide), next_of_stateOf (by decide), rfl,
    next_of_stateOf (by decide), by decide⟩

/-- V-S1. -/
theorem witness_StoreFrame :
    exec (.store 1 6) (cpu [2, 1, 6, 0xFF, 0, 0, 0, 0] 0 700 0) =
      .next (cpu [2, 1, 6, 0xFF, 0, 0, 0xBC, 2] 3 700 0) ∧ Instr.storeAddress (.store 1 6) = some 6 :=
  ⟨next_of_stateOf (by decide), rfl⟩

theorem witness_StepKeepsMemoryInvariant :
    (cpu [2, 1, 6, 0xFF, 0, 0, 0, 0] 0 700 0).Inv ∧
    step (cpu [2, 1, 6, 0xFF, 0, 0, 0, 0] 0 700 0) = .next (cpu [2, 1, 6, 0xFF, 0, 0, 0xBC, 2] 3 700 0) :=
  ⟨by decide, next_of_stateOf (by decide)⟩

theorem witness_LaunchedMemoryIsTheHosts :
    ([] : List Byte).length ≤ 65536 ∧ ([0xFF, 0] : List Byte).length ≤ 65536 ∧
    ([0xFF, 0] : List Byte)[1]? = some 0 := by decide

/-- At reset, and at the last program counter that memory can hold an instruction at. -/
theorem witness_PlacedInstructionIsRunNext :
    (State.reset.Inv ∧ State.reset.pc.toNat + 3 ≤ 65536 ∧ decodeTableWord 24 0x010000 = some (.loadw 0 0)) ∧
    ((blank 0 65533).Inv ∧ (blank 0 65533).pc.toNat + 3 ≤ 65536) := by decide

theorem witness_RunsDependOnMemoryOnly :
    (cpu [0xFF] 7 1 2).mem = (cpu [0xFF] 0 3 4).mem ∧ (cpu [0xFF] 7 1 2).memSize = (cpu [0xFF] 0 3 4).memSize :=
  ⟨rfl, rfl⟩

theorem fetched_rsvd : (cpu [5, 0, 0] 0 0 0).fetched = some (.rsvd 5 0 0) := by decide

/-- One step of a reserved opcode, which stores to no cell. -/
theorem witness_RunChangesOnlyStoredCells :
    runSteps 1 (cpu [5, 0, 0] 0 0 0) = .next (cpu [5, 0, 0] 3 0 0) ∧
    ∀ j < 1, ∀ u, runSteps j (cpu [5, 0, 0] 0 0 0) = .next u → ¬ u.storesTo 2 := by
  refine ⟨next_of_stateOf (by decide), ?_⟩
  intro j hj u hu
  obtain rfl : j = 0 := by omega
  cases hu
  rintro ⟨i, t, low, hi, hlow, -⟩
  rw [fetched_rsvd] at hi
  cases hi
  cases hlow

theorem witness_RunNeverReachesHighCells : runSteps 1 (cpu [5, 0, 0] 0 0 0) = .next (cpu [5, 0, 0] 3 0 0) :=
  next_of_stateOf (by decide)

theorem fetched_halt (r : RunState) : ({ cpu [0xFF] 0 0 0 with runState := r } : State).fetched = some .halt := rfl

/-- A state whose next instruction is HALT writes no register. -/
theorem halt_writes_no_pc (r : RunState) : ¬ ({ cpu [0xFF] 0 0 0 with runState := r } : State).writesPc := by
  rintro ⟨i, t, hi, hd, -⟩
  rw [fetched_halt] at hi
  cases hi
  cases hd

/-- The shortest run: HALT at 0, which ends in one step, and `MEMSIZE div 3 + 1 = 1`. -/
theorem witness_RunWithoutTransferEnds :
    (cpu [0xFF] 0 0 0).runState = .running ∧ (cpu [0xFF] 0 0 0).pc = 0 ∧
    ∀ k t, runSteps k (cpu [0xFF] 0 0 0) = .next t → ¬ t.writesPc := by
  refine ⟨rfl, rfl, ?_⟩
  have h1 : step (cpu [0xFF] 0 0 0) = .next { cpu [0xFF] 0 0 0 with runState := .halted } :=
    next_of_stateOf (by decide)
  rintro (_ | _ | k) t h
  · cases h
    exact halt_writes_no_pc .running
  · simp only [runSteps, h1] at h
    cases h
    exact halt_writes_no_pc .halted
  · simp only [runSteps, h1] at h
    cases h

theorem witness_HaltStepCountIsItsAddress :
    (cpu [0xFF] 0 0 0).runState = .running ∧ (cpu [0xFF] 0 0 0).pc = 0 ∧
    runSteps 1 (cpu [0xFF] 0 0 0) = .next { cpu [0xFF] 0 0 0 with runState := .halted } ∧
    ∀ j < 1, ∀ u, runSteps j (cpu [0xFF] 0 0 0) = .next u → ¬ u.writesPc := by
  refine ⟨rfl, rfl, next_of_stateOf (by decide), ?_⟩
  intro j hj u hu
  obtain rfl : j = 0 := by omega
  cases hu
  exact halt_writes_no_pc .running

end Sys2Proof.Tests
end

section
/-!
PROOFS. The state (10_state.md): the register ids, the run state and what a launched machine holds. The first part says
once when an instruction and a step raise `OutOfBounds` (rule R181) and what the run state is when they do not.
-/

namespace Sys2Proof.Proofs

open Sys2Proof.Machine Sys2Proof.Laws

/-! ## When an instruction raises -/

/-- The register ids and the data address make the instruction raise `OutOfBounds` (rule R181, situations 3 to 6). -/
def ExecRaises (s : State) : Instr → Prop
  | .loadw r a => 2 < r.toNat ∨ s.memSize.val ≤ dataAddress a + 1
  | .store r a => 2 < r.toNat ∨ s.memSize.val ≤ dataAddress a + 1
  | .add ra rb => 2 < ra.toNat ∨ 2 < rb.toNat
  | .sub ra rb => 2 < ra.toNat ∨ 2 < rb.toNat
  | .halt => False
  | .rsvd _ _ _ => False

theorem completeStep_of_eq_none {s : State} {operation : Option State} (h : operation = none) :
    completeStep s operation = .next s.afterFault :=
  completeStep_next.mpr (.inl ⟨h, rfl⟩)

/-- An operation that does not raise and keeps the run state completes in that run state. -/
theorem completeStep_of_ne_none {s : State} {operation : Option State} (h : operation ≠ none)
    (hkeep : ∀ u, operation = some u → u.runState = s.runState) :
    ∃ t, completeStep s operation = .next t ∧ t.runState = s.runState := by
  obtain ⟨u, hu⟩ := Option.ne_none_iff_exists'.mp h
  exact ⟨u.advance, completeStep_next.mpr (.inr ⟨u, hu, rfl⟩), hkeep u hu⟩

theorem loadOperation_runState {s u : State} {b1 b2 : Byte} (h : loadOperation s b1 b2 = some u) :
    u.runState = s.runState := by
  obtain ⟨r, v, -, -, rfl⟩ := loadOperation_eq_some.mp h
  exact writeReg_runState s r _

theorem storeOperation_runState {s u : State} {b1 b2 : Byte} (h : storeOperation s b1 b2 = some u) :
    u.runState = s.runState := by
  obtain ⟨r, -, hw⟩ := storeOperation_eq_some.mp h
  obtain ⟨-, rfl⟩ := writeWord_eq_some.mp hw
  rfl

theorem aluOperation_runState {f : Word → Word → Int} {s u : State} {b1 b2 : Byte}
    (h : aluOperation f s b1 b2 = some u) : u.runState = s.runState := by
  obtain ⟨r, q, -, -, rfl⟩ := aluOperation_eq_some.mp h
  exact writeReg_runState s r _

theorem exec_of_raises {i : Instr} {s : State} (h : ExecRaises s i) : exec i s = .next s.afterFault := by
  cases i with
  | loadw r a => exact completeStep_of_eq_none (loadOperation_eq_none.mpr h)
  | store r a => exact completeStep_of_eq_none (storeOperation_eq_none.mpr h)
  | add ra rb => exact completeStep_of_eq_none (aluOperation_eq_none.mpr h)
  | sub ra rb => exact completeStep_of_eq_none (aluOperation_eq_none.mpr h)
  | halt => exact h.elim
  | rsvd op k l => exact h.elim

/-- An instruction that does not raise completes: HALT in `HALTED`, every other in the run state it found. -/
theorem exec_of_not_raises {i : Instr} {s : State} (h : ¬ ExecRaises s i) :
    ∃ t, exec i s = .next t ∧ t.runState = if i = .halt then .halted else s.runState := by
  cases i with
  | loadw r a =>
    exact completeStep_of_ne_none (fun hn => h (loadOperation_eq_none.mp hn)) fun _ => loadOperation_runState
  | store r a =>
    exact completeStep_of_ne_none (fun hn => h (storeOperation_eq_none.mp hn)) fun _ => storeOperation_runState
  | add ra rb =>
    exact completeStep_of_ne_none (fun hn => h (aluOperation_eq_none.mp hn)) fun _ => aluOperation_runState
  | sub ra rb =>
    exact completeStep_of_ne_none (fun hn => h (aluOperation_eq_none.mp hn)) fun _ => aluOperation_runState
  | halt => exact ⟨_, rfl, rfl⟩
  | rsvd op k l => exact ⟨s.advance, rfl, rfl⟩

/-! ## When a step raises -/

/-- What the cycle finds to execute (rules R111 to R113). -/
theorem fetched_cases (s : State) :
    ((s.memSize.val ≤ s.pc.toNat ∨ (s.cell s.pc.toNat ≠ opHalt ∧ s.memSize.val ≤ s.pc.toNat + 2)) ∧
      s.fetched = none) ∨
    (s.pc.toNat < s.memSize.val ∧ s.cell s.pc.toNat = opHalt ∧ s.fetched = some .halt) ∨
    (s.pc.toNat + 2 < s.memSize.val ∧ s.cell s.pc.toNat ≠ opHalt ∧
      s.fetched = some (decodeTriple (s.cell s.pc.toNat) (s.cell (s.pc.toNat + 1)) (s.cell (s.pc.toNat + 2)))) := by
  obtain ⟨hr, hf⟩ | ⟨hr, hb, hf⟩ | ⟨-, hb, hr, hf⟩ | ⟨hr, hb, hf⟩ := fetchBytes_cases s
  · exact .inl ⟨.inl hr, by rw [State.fetched, hf]; rfl⟩
  · exact .inr (.inl ⟨hr, hb, by rw [State.fetched, hf, decode_halt]⟩)
  · exact .inl ⟨.inr ⟨hb, hr⟩, by rw [State.fetched, hf, decode_short hb]⟩
  · exact .inr (.inr ⟨hr, hb, by rw [State.fetched, hf, decode_triple hb]⟩)

theorem decodeTriple_ne_halt (b0 b1 b2 : Byte) : decodeTriple b0 b1 b2 ≠ .halt := by
  unfold decodeTriple
  split_ifs <;> exact Instr.noConfusion

/-- The HALT opcode in a cell that memory has is the only thing fetched as HALT (rule R112). -/
theorem fetched_eq_halt {s : State} :
    s.fetched = some .halt ↔ s.pc.toNat < s.memSize.val ∧ s.cell s.pc.toNat = 0xFF := by
  obtain ⟨hr, hf⟩ | ⟨hr, hb, hf⟩ | ⟨-, hb, hf⟩ := fetched_cases s
  · rw [hf]
    refine iff_of_false (by simp) fun ⟨hlt, hb⟩ => ?_
    exact hr.elim (fun hle => by omega) fun h => h.1 hb
  · exact iff_of_true hf ⟨hr, hb⟩
  · rw [hf]
    exact iff_of_false (fun h => decodeTriple_ne_halt _ _ _ (Option.some.inj h)) fun h => hb h.2

/-- Situations 3 to 6 of rule R181, in the three instruction bytes. -/
theorem execRaises_decodeTriple {s : State} {b0 b1 b2 : Byte} :
    ExecRaises s (decodeTriple b0 b1 b2) ↔
      ((b0 = 0x01 ∨ b0 = 0x02 ∨ b0 = 0x03 ∨ b0 = 0x04) ∧ 2 < b1.toNat) ∨
      ((b0 = 0x03 ∨ b0 = 0x04) ∧ 2 < b2.toNat) ∨
      (b0 = 0x01 ∧ s.memSize.val ≤ b2.toNat + 1) ∨
      (b0 = 0x02 ∧ s.memSize.val ≤ b2.toNat + 1) := by
  unfold decodeTriple
  split
  · subst b0; simp [ExecRaises, dataAddress, opLoadw]
  · split
    · subst b0; simp [ExecRaises, dataAddress, opStore]
    · split
      · subst b0; simp [ExecRaises, opAdd]
      · split
        · subst b0; simp [ExecRaises, opSub]
        · simp_all [ExecRaises, opLoadw, opStore, opAdd, opSub]

/-- The six situations of rule R181: the fetch is outside memory, or the instruction fetched raises. -/
theorem outOfBoundsSituation_iff {s : State} :
    s.outOfBoundsSituation ↔ s.fetched = none ∨ ∃ i, s.fetched = some i ∧ ExecRaises s i := by
  obtain ⟨hr, hf⟩ | ⟨hr, hb, hf⟩ | ⟨hr, hb, hf⟩ := fetched_cases s
  · exact iff_of_true (hr.elim .inl fun h => .inr (.inl h)) (.inl hf)
  · have hnot : ¬ s.memSize.val ≤ s.pc.toNat := by omega
    simp [State.outOfBoundsSituation, hnot, hb, opHalt, hf, ExecRaises]
  · have hnot : ¬ s.memSize.val ≤ s.pc.toNat := by omega
    have hnot' : ¬ s.memSize.val ≤ s.pc.toNat + 2 := by omega
    simp only [State.outOfBoundsSituation, outOfBoundsRule, hf, hnot, hnot', reduceCtorEq, Option.some.injEq,
      exists_eq_left', execRaises_decodeTriple, false_or, and_false]

theorem step_of_situation {s : State} (h : s.runState = .running) (hs : s.outOfBoundsSituation) :
    step s = .next s.afterFault := by
  rw [step_running h]
  obtain hf | ⟨i, hf, hi⟩ := outOfBoundsSituation_iff.mp hs
  · rw [hf]; rfl
  · rw [hf]; exact exec_of_raises hi

/-- Outside the six situations a step completes, in `HALTED` if it executed HALT and else in `RUNNING` (rule R183). -/
theorem step_of_not_situation {s : State} (h : s.runState = .running) (hs : ¬ s.outOfBoundsSituation) :
    ∃ t, step s = .next t ∧ t.runState = if s.fetched = some .halt then .halted else .running := by
  rw [outOfBoundsSituation_iff, not_or] at hs
  obtain ⟨hsome, hraise⟩ := hs
  obtain ⟨i, hf⟩ := Option.ne_none_iff_exists'.mp hsome
  obtain ⟨t, ht, hrun⟩ := exec_of_not_raises fun hi => hraise ⟨i, hf, hi⟩
  refine ⟨t, ?_, ?_⟩
  · rw [step_running h, hf]; exact ht
  · simpa only [hf, Option.some.injEq, h] using hrun

/-- HALT in a cell that memory has is none of the six situations. -/
theorem not_situation_of_fetched_halt {s : State} (h : s.fetched = some .halt) : ¬ s.outOfBoundsSituation := by
  simp [outOfBoundsSituation_iff, h, ExecRaises]

/-- Settles O12: the run state a step leaves is read off the two cases of rule R181, a situation or none. -/
theorem runStateChangesOnlyByHaltAndFailure : Obligations.RunStateChangesOnlyByHaltAndFailure := by
  intro s t h
  have hrun := running_of_step h
  refine ⟨hrun, ?_⟩
  rw [← fetched_eq_halt]
  by_cases hs : s.outOfBoundsSituation
  · rw [step_of_situation hrun hs] at h
    cases h
    have hnot : s.fetched ≠ some .halt := fun hf => not_situation_of_fetched_halt hf hs
    simp [hnot, hs, eq_comm]
  · obtain ⟨u, hu, hru⟩ := step_of_not_situation hrun hs
    obtain rfl : u = t := Host.Outcome.next.inj (hu.symm.trans h)
    rw [hru]
    split_ifs with hf <;> simp [hf, hs]

/-! ## Register ids -/

/-- Settles O17: an id above 2 names no register, and every instruction that uses it as a register operand raises. -/
theorem registerIdsNameThreeRegisters : Obligations.RegisterIdsNameThreeRegisters := by
  refine ⟨fun s => ⟨rfl, rfl, rfl⟩, fun b hb => ⟨regOperand_eq_none.mpr hb, fun s c => ?_⟩⟩
  exact ⟨exec_of_raises (.inl hb), exec_of_raises (.inl hb), exec_of_raises (.inl hb), exec_of_raises (.inr hb),
    exec_of_raises (.inl hb), exec_of_raises (.inr hb)⟩

/-! ## The launched machine -/

section Launch

variable {mem0 : List Byte} (h : mem0.length ≤ Config.maxMemSize)
include h

theorem launch_mem : (State.launch mem0).mem = Memory.ofBytes 0 mem0 :=
  congrArg (Memory.ofBytes 0) (List.take_of_length_le h)

theorem launch_memSize : (State.launch mem0).memSize.val = mem0.length :=
  congrArg List.length (List.take_of_length_le h)

theorem launch_cell {a : Nat} {b : Byte} (hb : mem0[a]? = some b) : (State.launch mem0).cell a = b := by
  obtain ⟨ha, rfl⟩ := List.getElem?_eq_some_iff.mp hb
  rw [State.cell, launch_mem h]
  simpa using read_ofBytes (a := 0) ha

theorem launch_inv : (State.launch mem0).Inv := by
  rw [State.Inv, launch_mem h, launch_memSize h]
  exact ⟨wf_ofBytes, below_ofBytes (by omega)⟩

end Launch

/-- Settles O37: a list within the largest MEMSIZE is launched whole, and memory filled with it reads as it. -/
theorem launchedMemoryIsTheHosts : Obligations.LaunchedMemoryIsTheHosts := by
  intro mem0 h
  exact ⟨rfl, rfl, rfl, rfl, launch_memSize h, fun _ _ => launch_cell h, launch_inv h⟩

end Sys2Proof.Proofs
end

section
/-!
PROOFS. Memory (20_memory.md): the byte order of a data word (rule R54). Cutting a word into its two cells and making a
word of two cells are inverse, and so a word read back where it was written is the word written.
-/

namespace Sys2Proof.Proofs

open Sys2Proof.Machine Sys2Proof.Laws

@[simp] theorem wordOfCells_lowCell_highCell (v : Word) : wordOfCells (lowCell v) (highCell v) = v := by
  apply BitVec.eq_of_toNat_eq
  rw [wordOfCells_toNat, lowCell_toNat, highCell_toNat]
  exact Nat.mod_add_div v.toNat 256

@[simp] theorem lowCell_wordOfCells (lo hi : Byte) : lowCell (wordOfCells lo hi) = lo := by
  apply BitVec.eq_of_toNat_eq
  rw [lowCell_toNat, wordOfCells_toNat, Nat.add_mul_mod_self_left]
  exact Nat.mod_eq_of_lt lo.isLt

@[simp] theorem highCell_wordOfCells (lo hi : Byte) : highCell (wordOfCells lo hi) = hi := by
  apply BitVec.eq_of_toNat_eq
  rw [highCell_toNat, wordOfCells_toNat]
  have := lo.isLt
  omega

/-- A word write succeeds where memory has both cells (rules R10, R58). -/
theorem exists_writeWord {s : State} {a : Nat} (ha : a + 1 < s.memSize.val) (v : Word) :
    ∃ t, s.writeWord a v = some t :=
  ⟨_, writeWord_eq_some.mpr ⟨ha, rfl⟩⟩

/-- A word read at the address it was written at is the word written. -/
theorem readWord_of_writeWord {s t : State} {a : Nat} {v : Word} (hwf : Memory.wf s.mem = true)
    (h : s.writeWord a v = some t) : t.readWord a = some v := by
  have hcells : wordOfCells (t.cell a) (t.cell (a + 1)) = v := by
    rw [writeWord_cell_low hwf h, writeWord_cell_high hwf h, wordOfCells_lowCell_highCell]
  obtain ⟨ha, rfl⟩ := writeWord_eq_some.mp h
  exact readWord_eq_some.mpr ⟨ha, hcells⟩

/-- Settles O29: the two cells a word write leaves are the word's two bytes, which make the word again. -/
theorem wordsAreLittleEndian : Obligations.WordsAreLittleEndian := by
  refine ⟨fun s a v hwf ha => ?_, wordOfCells_lowCell_highCell, fun lo hi =>
    ⟨lowCell_wordOfCells lo hi, highCell_wordOfCells lo hi⟩⟩
  obtain ⟨t, ht⟩ := exists_writeWord ha v
  refine ⟨t, ht, ?_, ?_, readWord_of_writeWord hwf ht⟩
  · rw [writeWord_cell_low hwf ht, lowCell_toNat]
  · rw [writeWord_cell_high hwf ht, highCell_toNat]

end Sys2Proof.Proofs
end

section
/-!
PROOFS. The encoding (30_encoding.md): the opcode table against the decoder (rule R85). No row's mask reaches the operand
bytes, and the decoder reads the mnemonic off the opcode too, so the two are compared once for each opcode byte.
-/

namespace Sys2Proof.Proofs

open Sys2Proof.Laws

/-- The mnemonic of what the decoder reads from three bytes, of which only the opcode counts (rules R85, R114). -/
def opcodeMnemonic (b0 : Byte) : String :=
  if b0 = opHalt then Instr.halt.mnemonic else (decodeTriple b0 0 0).mnemonic

theorem decodeTriple_mnemonic (b0 b1 b2 : Byte) :
    (decodeTriple b0 b1 b2).mnemonic = (decodeTriple b0 0 0).mnemonic := by
  unfold decodeTriple
  split_ifs <;> rfl

/-- Three bytes always hold an instruction (rule R85). -/
theorem exists_decode_three_bytes (b0 b1 b2 : Byte) :
    ∃ i rest, decode [b0, b1, b2] = .ok (i, rest) ∧ i.mnemonic = opcodeMnemonic b0 := by
  by_cases hb : b0 = opHalt
  · subst hb
    exact ⟨.halt, [b1, b2], decode_halt _, rfl⟩
  · exact ⟨decodeTriple b0 b1 b2, [], decode_triple hb b1 b2 [],
      by rw [opcodeMnemonic, if_neg hb, decodeTriple_mnemonic]⟩

/-- A mask whose low `k` bits are clear looks only at the bits from `k` on. -/
theorem and_eq_of_two_pow_dvd {k m : Nat} (hm : 2 ^ k ∣ m) (x : Nat) :
    x &&& m = 2 ^ k * (x / 2 ^ k &&& m / 2 ^ k) := by
  have hdvd : 2 ^ k ∣ x &&& m := by
    rw [Nat.dvd_iff_mod_eq_zero, Nat.and_mod_two_pow, Nat.mod_eq_zero_of_dvd hm, Nat.and_zero]
  rw [← Nat.and_div_two_pow, Nat.mul_div_cancel' hdvd]

theorem tripleWord_div (b0 b1 b2 : Byte) : tripleWord b0 b1 b2 / 2 ^ 16 = b0.toNat := by
  have := b1.isLt
  have := b2.isLt
  simp only [tripleWord]
  omega

theorem two_pow_dvd_mask : ∀ row ∈ opcodeTable, 2 ^ 16 ∣ row.mask := by decide

/-- Whether a row selects an instruction word depends on the opcode byte alone. -/
theorem rowSelects_tripleWord {row : OpcodeRow} (hrow : row ∈ opcodeTable) (b0 b1 b2 : Byte) :
    rowSelects row (tripleWord b0 b1 b2) = rowSelects row (tripleWord b0 0 0) := by
  have hmask := and_eq_of_two_pow_dvd (two_pow_dvd_mask row hrow)
  simp only [rowSelects, hmask, tripleWord_div]

/-- The nineteen rows against the 256 opcode bytes (rules R84, R93). -/
theorem selected_mnemonics_of_opcode : ∀ b0 : Byte,
    (opcodeTable.filter fun row => rowSelects row (tripleWord b0 0 0)).map OpcodeRow.mnemonic =
      [opcodeMnemonic b0] := by decide

/-- Settles O3: the operand bytes count neither for the table's choice nor for the decoder's, and for each opcode byte
the one row chosen has the decoded mnemonic. -/
theorem everyOpcodeSelectsExactlyOneRow : Obligations.EveryOpcodeSelectsExactlyOneRow := by
  refine ⟨fun b0 b1 b2 => ?_, decode_halt⟩
  obtain ⟨i, rest, hdecode, hmnemonic⟩ := exists_decode_three_bytes b0 b1 b2
  refine ⟨i, rest, hdecode, ?_⟩
  rw [hmnemonic, List.filter_congr fun row hrow => rowSelects_tripleWord hrow b0 b1 b2]
  exact selected_mnemonics_of_opcode b0

end Sys2Proof.Proofs
end

section
/-!
PROOFS. The cycle and control (40_cycle_and_control.md). First what each instruction answers where it does not raise, in
wrapping operations on words, and then what `pseudocodeStep` answers there: rule R110's step is the machine's because
the two raise in the same six situations (rule R181) and agree outside them.
-/

namespace Sys2Proof.Proofs

open Sys2Proof.Machine Sys2Proof.Laws

/-! ## What an instruction answers where it does not raise -/

theorem exec_loadw_of_not_raises {s : State} {r a : Byte} (h : ¬ ExecRaises s (.loadw r a)) :
    exec (.loadw r a) s = .next (s.afterResult r (s.wordAt a.toNat)) := by
  obtain ⟨u, hu⟩ := Option.ne_none_iff_exists'.mp fun hn => h (loadOperation_eq_none.mp hn)
  obtain ⟨q, v, hq, hv, rfl⟩ := loadOperation_eq_some.mp hu
  obtain ⟨-, rfl⟩ := readWord_eq_some.mp hv
  exact completeStep_next.mpr (.inr ⟨_, hu, by rw [advance_writeReg hq, narrow_toNat]; rfl⟩)

/-- A completed STORE is the word write of `x[r]`, and then the advance (rule R145). -/
theorem exec_store_of_not_raises {s : State} {r a : Byte} (h : ¬ ExecRaises s (.store r a)) :
    ∃ u, s.writeWord (dataAddress a) (s.regAt r) = some u ∧ exec (.store r a) s = .next u.advance := by
  obtain ⟨u, hu⟩ := Option.ne_none_iff_exists'.mp fun hn => h (storeOperation_eq_none.mp hn)
  obtain ⟨q, hq, hw⟩ := storeOperation_eq_some.mp hu
  rw [readReg_of_regOperand hq] at hw
  exact ⟨u, hw, completeStep_next.mpr (.inr ⟨u, hu, rfl⟩)⟩

theorem completeStep_aluOperation {f : Word → Word → Int} {s : State} {b1 b2 : Byte}
    (h : ¬ (2 < b1.toNat ∨ 2 < b2.toNat)) :
    completeStep s (aluOperation f s b1 b2) = .next (s.afterResult b1 (narrow (f (s.regAt b1) (s.regAt b2)))) := by
  obtain ⟨u, hu⟩ := Option.ne_none_iff_exists'.mp fun hn => h (aluOperation_eq_none.mp hn)
  obtain ⟨ra, rb, ha, hb, rfl⟩ := aluOperation_eq_some.mp hu
  refine completeStep_next.mpr (.inr ⟨_, hu, ?_⟩)
  rw [advance_writeReg ha, readReg_of_regOperand ha, readReg_of_regOperand hb]

theorem exec_add_of_not_raises {s : State} {ra rb : Byte} (h : ¬ ExecRaises s (.add ra rb)) :
    exec (.add ra rb) s = .next (s.afterResult ra (s.regAt ra + s.regAt rb)) := by
  rw [← narrow_aluAdd]
  exact completeStep_aluOperation h

theorem exec_sub_of_not_raises {s : State} {ra rb : Byte} (h : ¬ ExecRaises s (.sub ra rb)) :
    exec (.sub ra rb) s = .next (s.afterResult ra (s.regAt ra - s.regAt rb)) := by
  rw [← narrow_aluSub]
  exact completeStep_aluOperation h

theorem exec_rsvd (op k l : Byte) (s : State) : exec (.rsvd op k l) s = .next { s with pc := s.pc + 3 } := by
  rw [← advance_eq]
  rfl

/-! ## The natural numbers of the pseudocode, as words -/

/-- The wrap of ADD and of the advance (decisions D1, D3). -/
theorem ofNat_add_mod_eq_add (a b : Word) : BitVec.ofNat 16 ((a.toNat + b.toNat) % 65536) = a + b := by
  apply BitVec.eq_of_toNat_eq
  simp

theorem ofNat_advance (pc : Word) : BitVec.ofNat 16 ((pc.toNat + 3) % 65536) = pc + 3 := ofNat_add_mod_eq_add pc 3

/-- The wrap of SUB (decision D2). -/
theorem ofNat_borrow_eq_sub (a b : Word) :
    BitVec.ofNat 16 (if b.toNat ≤ a.toNat then a.toNat - b.toNat else a.toNat + 65536 - b.toNat) = a - b := by
  apply BitVec.eq_of_toNat_eq
  have := a.isLt
  have := b.isLt
  rw [BitVec.toNat_ofNat, BitVec.toNat_sub]
  split <;> omega

/-! ## What the pseudocode answers -/

/-- The two checks an operation body begins with: where one fails, the body is what it does on a failure. -/
theorem ite_not_ite_not_of_not_and {α : Type} {P Q : Prop} [Decidable P] [Decidable Q] (h : ¬ (P ∧ Q)) (x y : α) :
    (if ¬ P then x else if ¬ Q then x else y) = x := by
  rw [ite_eq_left_iff, not_not, ite_eq_left_iff, not_not]
  exact fun hp hq => absurd ⟨hp, hq⟩ h

/-- The pseudocode raises in each of the six situations of rule R181. -/
theorem pseudocodeStep_of_situation {s : State} (h : s.outOfBoundsSituation) :
    pseudocodeStep s = s.afterFault := by
  simp only [State.outOfBoundsSituation, outOfBoundsRule, ← BitVec.toNat_inj, ne_eq, BitVec.reduceToNat] at h
  unfold pseudocodeStep
  refine ite_eq_left_iff.mpr fun hopcode => ?_
  rw [if_neg (by omega)]
  refine ite_eq_left_iff.mpr fun hoperands => ?_
  split
  · exact ite_not_ite_not_of_not_and (by omega) _ _
  · exact ite_not_ite_not_of_not_and (by omega) _ _
  · exact ite_not_ite_not_of_not_and (by omega) _ _
  · exact ite_not_ite_not_of_not_and (by omega) _ _
  · next hloadw hstore hadd hsub =>
    change _ ≠ _ at hloadw hstore hadd hsub
    omega

theorem pseudocodeStep_halt {s : State} (hpc : s.pc.toNat < s.memSize.val) (hb : s.cell s.pc.toNat = opHalt) :
    pseudocodeStep s = { s with runState := .halted } := by
  simp (disch := omega) [pseudocodeStep, hb, opHalt, if_neg]

theorem pseudocodeStep_rsvd {s : State} (hpc : s.pc.toNat + 2 < s.memSize.val) (hhalt : s.cell s.pc.toNat ≠ opHalt)
    (hloadw : s.cell s.pc.toNat ≠ opLoadw) (hstore : s.cell s.pc.toNat ≠ opStore) (hadd : s.cell s.pc.toNat ≠ opAdd)
    (hsub : s.cell s.pc.toNat ≠ opSub) :
    pseudocodeStep s = { s with pc := s.pc + 3 } := by
  have hb : ¬ (s.cell s.pc.toNat).toNat = 255 := fun h => hhalt (BitVec.eq_of_toNat_eq h)
  unfold pseudocodeStep
  rw [if_neg (by omega), if_neg hb, if_neg (by omega)]
  split
  · next h => exact absurd (BitVec.eq_of_toNat_eq h) hloadw
  · next h => exact absurd (BitVec.eq_of_toNat_eq h) hstore
  · next h => exact absurd (BitVec.eq_of_toNat_eq h) hadd
  · next h => exact absurd (BitVec.eq_of_toNat_eq h) hsub
  · rw [ofNat_advance]

section Dispatch

variable {s : State} {b1 b2 : Byte} (hpc : s.pc.toNat + 2 < s.memSize.val)
  (h1 : s.cell (s.pc.toNat + 1) = b1) (h2 : s.cell (s.pc.toNat + 2) = b2)
include hpc h1 h2

theorem pseudocodeStep_loadw (hb : s.cell s.pc.toNat = opLoadw) (h : ¬ ExecRaises s (.loadw b1 b2)) :
    pseudocodeStep s = s.afterResult b1 (s.wordAt b2.toNat) := by
  simp only [ExecRaises, dataAddress] at h
  simp (disch := omega) [pseudocodeStep, hb, h1, h2, opLoadw, if_neg]

theorem pseudocodeStep_store {u : State} (hb : s.cell s.pc.toNat = opStore) (h : ¬ ExecRaises s (.store b1 b2))
    (hu : s.writeWord (dataAddress b2) (s.regAt b1) = some u) : pseudocodeStep s = u.advance := by
  simp only [ExecRaises, dataAddress] at h
  obtain ⟨-, rfl⟩ := writeWord_eq_some.mp hu
  simp (disch := omega) [pseudocodeStep, hb, h1, h2, opStore, if_neg, advance_eq, ofNat_advance, dataAddress, lowCell,
    highCell]

theorem pseudocodeStep_add (hb : s.cell s.pc.toNat = opAdd) (h : ¬ ExecRaises s (.add b1 b2)) :
    pseudocodeStep s = s.afterResult b1 (s.regAt b1 + s.regAt b2) := by
  simp only [ExecRaises] at h
  rw [← ofNat_add_mod_eq_add]
  simp (disch := omega) [pseudocodeStep, hb, h1, h2, opAdd, if_neg]

theorem pseudocodeStep_sub (hb : s.cell s.pc.toNat = opSub) (h : ¬ ExecRaises s (.sub b1 b2)) :
    pseudocodeStep s = s.afterResult b1 (s.regAt b1 - s.regAt b2) := by
  simp only [ExecRaises] at h
  rw [← ofNat_borrow_eq_sub]
  simp (disch := omega) [pseudocodeStep, hb, h1, h2, opSub, if_neg]

/-- The dispatch: the instruction the opcode selects does what the pseudocode's arm for that opcode does (rule R114). -/
theorem exec_decodeTriple_eq_pseudocodeStep (hhalt : s.cell s.pc.toNat ≠ opHalt)
    (h : ¬ ExecRaises s (decodeTriple (s.cell s.pc.toNat) b1 b2)) :
    exec (decodeTriple (s.cell s.pc.toNat) b1 b2) s = .next (pseudocodeStep s) := by
  unfold decodeTriple at h ⊢
  split_ifs at h ⊢ with hloadw hstore hadd hsub
  · rw [exec_loadw_of_not_raises h, pseudocodeStep_loadw hpc h1 h2 hloadw h]
  · obtain ⟨u, hu, hexec⟩ := exec_store_of_not_raises h
    rw [hexec, pseudocodeStep_store hpc h1 h2 hstore h hu]
  · rw [exec_add_of_not_raises h, pseudocodeStep_add hpc h1 h2 hadd h]
  · rw [exec_sub_of_not_raises h, pseudocodeStep_sub hpc h1 h2 hsub h]
  · rw [exec_rsvd, pseudocodeStep_rsvd hpc hhalt hloadw hstore hadd hsub]

end Dispatch

/-- While `RUNNING` the step is rule R110's: both raise in the six situations, and outside them the fetch finds HALT or
a triple to dispatch. -/
theorem step_eq_pseudocodeStep {s : State} (hrun : s.runState = .running) : step s = .next (pseudocodeStep s) := by
  by_cases hs : s.outOfBoundsSituation
  · rw [step_of_situation hrun hs, pseudocodeStep_of_situation hs]
  · obtain ⟨hsome, hraise⟩ := not_or.mp (mt outOfBoundsSituation_iff.mpr hs)
    obtain ⟨-, hf⟩ | ⟨hpc, hb, hf⟩ | ⟨hpc, hb, hf⟩ := fetched_cases s
    · exact absurd hf hsome
    · rw [step_running hrun, hf, pseudocodeStep_halt hpc hb]
      rfl
    · rw [step_running hrun, hf]
      exact exec_decodeTriple_eq_pseudocodeStep hpc rfl rfl hb fun hi => hraise ⟨_, hf, hi⟩

/-- Settles O8: the simulation is `step_eq_pseudocodeStep`, and only a `RUNNING` state has a step. -/
theorem stepRefinesPseudocode : Obligations.StepRefinesPseudocode :=
  fun _ => ⟨step_eq_pseudocodeStep, fun hrun _ hstep => hrun (running_of_step hstep)⟩

/-! ## The fetch -/

/-- Settles O9: the fetch outside memory is the first situation of rule R181; inside memory, whatever the fetch finds
begins with the cell at the program counter. -/
theorem opcodeFetchOutsideMemoryRaises : Obligations.OpcodeFetchOutsideMemoryRaises := by
  intro s hrun
  refine ⟨fun hle => step_of_situation hrun (.inl hle), fun hlt => ?_⟩
  obtain ⟨hle, -⟩ | ⟨-, hb, hf⟩ | ⟨-, -, -, hf⟩ | ⟨-, -, hf⟩ := fetchBytes_cases s
  · omega
  · rw [hf, hb]; rfl
  · rw [hf]; rfl
  · rw [hf]; rfl

/-- Settles O10: an operand fetch outside memory is the second situation of rule R181. -/
theorem operandFetchOutsideMemoryRaises : Obligations.OperandFetchOutsideMemoryRaises := by
  intro s hrun _ hb
  refine ⟨fun hle => step_of_situation hrun (.inr (.inl ⟨hb, hle⟩)), fun hlt => ?_⟩
  obtain ⟨hle, -⟩ | ⟨-, hb', -⟩ | ⟨-, -, hle, -⟩ | ⟨-, -, hf⟩ := fetchBytes_cases s
  · omega
  · exact absurd hb' hb
  · omega
  · exact hf

/-! ## HALT and the reserved opcodes -/

theorem fetchBytes_halt {s : State} (hpc : s.pc.toNat < s.memSize.val) (hb : s.cell s.pc.toNat = opHalt) :
    s.fetchBytes = [opHalt] := by
  obtain ⟨hle, -⟩ | ⟨-, -, hf⟩ | ⟨-, hb', -⟩ | ⟨-, hb', -⟩ := fetchBytes_cases s
  · omega
  · exact hf
  · exact absurd hb hb'
  · exact absurd hb hb'

/-- Settles O22: HALT is fetched from its opcode alone, and no state but a `RUNNING` one has a step. -/
theorem haltEndsRunOnly : Obligations.HaltEndsRunOnly := by
  refine fun s => ⟨rfl, fun t h => ?_, fun hrun hpc hb => ⟨fetchBytes_halt hpc hb, ?_⟩,
    fun hrun hle => step_of_situation hrun (.inl hle)⟩
  · exact RunState.noConfusion (running_of_step h)
  · rw [step_running hrun, fetched_eq_halt.mpr ⟨hpc, hb⟩]
    rfl

theorem decodeTriple_of_reserved {op : Byte} (h : reservedOpcode op) (k l : Byte) :
    op ≠ opHalt ∧ decodeTriple op k l = .rsvd op k l := by
  have hne : ∀ b : Byte, ¬ reservedOpcode b → op ≠ b := fun b hb he => hb (he ▸ h)
  refine ⟨hne _ (by decide), ?_⟩
  rw [decodeTriple, if_neg (hne _ (by decide)), if_neg (hne _ (by decide)), if_neg (hne _ (by decide)),
    if_neg (hne _ (by decide))]

/-- Settles O23: a reserved opcode is no defined one, so it decodes to RSVD, and it is not HALT, so its operands are
fetched. -/
theorem reservedOpcodesOnlyAdvance : Obligations.ReservedOpcodesOnlyAdvance := by
  intro s op k l hop
  obtain ⟨hhalt, hdecode⟩ := decodeTriple_of_reserved hop k l
  refine ⟨?_, exec_rsvd op k l s, fun hrun _ hb hle => step_of_situation hrun (.inr (.inl ⟨hb ▸ hhalt, hle⟩))⟩
  rw [decode_triple hhalt, hdecode]

/-! ## Register 0 as a source -/

theorem afterResult_zero_pc (s : State) (v : Word) : (s.afterResult 0 v).pc = v + 3 := rfl

/-- A result in an accumulator is there, and the program counter only advances. -/
theorem afterResult_accumulator {b : Byte} (hb : b = 1 ∨ b = 2) (s : State) (v : Word) :
    (s.afterResult b v).pc = s.pc + 3 ∧ (s.afterResult b v).regAt b = v := by
  obtain rfl | rfl := hb <;> exact ⟨rfl, rfl⟩

theorem accumulator_le {b : Byte} (hb : b = 1 ∨ b = 2) : b.toNat ≤ 2 := by
  obtain rfl | rfl := hb <;> decide

theorem regAt_zero (s : State) : s.regAt 0 = s.pc := rfl

/-- STORE of register 0 leaves its own address in the two cells. -/
theorem exec_store_zero {s : State} {a : Byte} (hwf : Memory.wf s.mem = true) (ha : dataAddress a + 1 < s.memSize.val) :
    ∃ t, exec (.store 0 a) s = .next t ∧ t.pc = s.pc + 3 ∧
      (t.cell (dataAddress a)).toNat + 256 * (t.cell (dataAddress a + 1)).toNat = s.pc.toNat := by
  have hraise : ¬ ExecRaises s (.store 0 a) := not_or.mpr ⟨by decide, by omega⟩
  obtain ⟨u, hu, hexec⟩ := exec_store_of_not_raises hraise
  refine ⟨u.advance, hexec, ?_, ?_⟩
  · obtain ⟨-, rfl⟩ := writeWord_eq_some.mp hu
    exact advance_pc _
  · rw [advance_cell, advance_cell, writeWord_cell_low hwf hu, writeWord_cell_high hwf hu, lowCell_toNat, highCell_toNat]
    exact Nat.mod_add_div s.pc.toNat 256

/-- Settles O26: an operation reads register 0 before the advance, so `x[0]` is the program counter of the state it
begins in. -/
theorem readingRegisterZeroGivesOwnAddress : Obligations.ReadingRegisterZeroGivesOwnAddress := by
  refine ⟨fun _ _ => exec_store_zero, fun s ra hra => ?_, fun s rb hrb => ?_⟩
  · have hids : ¬ (2 < ra.toNat ∨ 2 < (0 : Byte).toNat) := not_or.mpr ⟨Nat.not_lt.mpr (accumulator_le hra), by decide⟩
    refine ⟨⟨_, exec_add_of_not_raises hids, ?_⟩, ⟨_, exec_sub_of_not_raises hids, ?_⟩⟩
    · obtain ⟨hpc, hreg⟩ := afterResult_accumulator hra s (s.regAt ra + s.regAt 0)
      exact ⟨hpc, by rw [hreg, BitVec.toNat_add, regAt_zero]⟩
    · obtain ⟨hpc, hreg⟩ := afterResult_accumulator hra s (s.regAt ra - s.regAt 0)
      refine ⟨hpc, ?_⟩
      have := s.pc.isLt
      rw [hreg, BitVec.toNat_sub, regAt_zero]
      omega
  · have hids : ¬ (2 < (0 : Byte).toNat ∨ 2 < rb.toNat) := not_or.mpr ⟨by decide, Nat.not_lt.mpr hrb⟩
    refine ⟨⟨_, exec_add_of_not_raises hids, ?_⟩, ⟨_, exec_sub_of_not_raises hids, ?_⟩⟩
    · rw [afterResult_zero_pc, regAt_zero]
      bv_omega
    · rw [afterResult_zero_pc, regAt_zero]
      bv_omega

end Sys2Proof.Proofs
end

section
/-!
PROOFS. LOADW and STORE (41_load_store.md): both check the register id and then the two cells, and do nothing to the
rest of the state when they complete.
-/

namespace Sys2Proof.Proofs

open Sys2Proof.Machine Sys2Proof.Laws

/-- The frame of a word write and the advance after it: of all but memory only the program counter changes (rule R145). -/
theorem writeWord_advance_frame {s u : State} {a : Nat} {v : Word} (hu : s.writeWord a v = some u) :
    u.advance.pc = s.pc + 3 ∧ u.advance.r1 = s.r1 ∧ u.advance.r2 = s.r2 ∧ u.advance.runState = s.runState ∧
      u.advance.memSize = s.memSize := by
  obtain ⟨-, rfl⟩ := writeWord_eq_some.mp hu
  exact ⟨advance_pc _, rfl, rfl, rfl, rfl⟩

/-- Settles O18: with a register id and two cells that exist LOADW does not raise, and its result is the word there;
otherwise it raises. -/
theorem loadwLoadsWord : Obligations.LoadwLoadsWord := by
  refine fun s r a => ⟨decode_triple (by decide) r a [], fun hr ha => ?_, exec_of_raises (i := .loadw r a)⟩
  exact exec_loadw_of_not_raises (not_or.mpr ⟨Nat.not_lt.mpr hr, Nat.not_le.mpr ha⟩)

/-- Settles O19: a STORE that does not raise is the word write of the register and then the advance, so the two cells
hold the word's two bytes and every other cell is as before. -/
theorem storeStoresWord : Obligations.StoreStoresWord := by
  refine fun s r a => ⟨decode_triple (by decide) r a [], fun hwf hr ha => ?_, exec_of_raises (i := .store r a)⟩
  obtain ⟨u, hu, hexec⟩ := exec_store_of_not_raises (not_or.mpr ⟨Nat.not_lt.mpr hr, Nat.not_le.mpr ha⟩)
  obtain ⟨hpc, hr1, hr2, hrun, hsize⟩ := writeWord_advance_frame hu
  refine ⟨u.advance, hexec, hpc, hr1, hr2, hrun, hsize, ?_, ?_, fun x hlow hhigh => ?_⟩
  · rw [advance_cell, writeWord_cell_low hwf hu, lowCell_toNat]
  · rw [advance_cell, writeWord_cell_high hwf hu, highCell_toNat]
  · rw [advance_cell, writeWord_cell_other hu hlow hhigh]

end Sys2Proof.Proofs
end

section
/-!
PROOFS. ADD and SUB (42_arithmetic.md): both check the two register ids and do nothing to the rest of the state when
they complete. What they write is the wrapping sum or difference of two words; what is left to say is which number that
word is.
-/

namespace Sys2Proof.Proofs

open Sys2Proof.Machine Sys2Proof.Laws

/-- Ids that name registers are no reason to raise (rules R20, R181). -/
theorem register_ids_not_raise {ra rb : Byte} (ha : ra.toNat ≤ 2) (hb : rb.toNat ≤ 2) :
    ¬ (2 < ra.toNat ∨ 2 < rb.toNat) :=
  not_or.mpr ⟨Nat.not_lt.mpr ha, Nat.not_lt.mpr hb⟩

/-- Settles O20: with two register ids ADD does not raise and writes the sum of the words, which is the exact sum
reduced; otherwise it raises. -/
theorem addAddsModuloWord : Obligations.AddAddsModuloWord := by
  refine fun s ra rb => ⟨decode_triple (by decide) ra rb [], fun ha hb => ?_, exec_of_raises (i := .add ra rb)⟩
  rw [ofNat_add_mod_eq_add]
  exact exec_add_of_not_raises (register_ids_not_raise ha hb)

/-- Settles O21: with two register ids SUB does not raise and writes the difference of the words, which is the exact
difference with its borrow; otherwise it raises. -/
theorem subSubtractsModuloWord : Obligations.SubSubtractsModuloWord := by
  refine fun s ra rb => ⟨decode_triple (by decide) ra rb [], fun ha hb => ?_, exec_of_raises (i := .sub ra rb)⟩
  rw [ofNat_borrow_eq_sub]
  exact exec_sub_of_not_raises (register_ids_not_raise ha hb)

/-! ## Where the wrapping result is not the integer result -/

/-- The sum of two words as a number: they carry at most once (rule R170, decisions D1, D3). -/
theorem toNat_add_eq_ite (a b : Word) :
    (a + b).toNat = if a.toNat + b.toNat < 65536 then a.toNat + b.toNat else a.toNat + b.toNat - 65536 := by
  have := a.isLt
  have := b.isLt
  rw [BitVec.toNat_add]
  split <;> omega

/-- The difference of two words as a number: they borrow at most once (rule R170, decision D2). -/
theorem toNat_sub_eq_ite (a b : Word) :
    ((a - b).toNat : Int) =
      if a.toNat < b.toNat then (a.toNat : Int) - b.toNat + 65536 else (a.toNat : Int) - b.toNat := by
  have := a.isLt
  have := b.isLt
  rw [BitVec.toNat_sub]
  split <;> omega

/-- Settles O24: what ADD and SUB write is the sum and the difference of two words, and the advance is a sum with 3. -/
theorem arithmeticWrapsExactly : Obligations.ArithmeticWrapsExactly := by
  refine ⟨fun s ra rb ha hb => ?_, fun s => ?_⟩
  · have hids := register_ids_not_raise ha hb
    exact ⟨⟨_, exec_add_of_not_raises hids, toNat_add_eq_ite _ _⟩,
      ⟨_, exec_sub_of_not_raises hids, toNat_sub_eq_ite _ _⟩⟩
  · have hthree : (3 : Word).toNat = 3 := rfl
    rw [advance_pc, toNat_add_eq_ite, hthree]
    split_ifs <;> omega

end Sys2Proof.Proofs
end

section
/-!
PROOFS. The one failure (60_exceptions.md). A step of a `RUNNING` state is one of two: in the six situations of rule R181
it raises (`step_of_situation`), outside them it completes (`step_of_not_situation`).
-/

namespace Sys2Proof.Proofs

open Sys2Proof.Machine Sys2Proof.Laws

/-- Settles O14: a step raises in each of the six situations, and `FAULTED` is entered from nowhere else (rule R29). -/
theorem outOfBoundsInExactlySixSituations : Obligations.OutOfBoundsInExactlySixSituations := by
  refine fun s hrun => ⟨fun ⟨t, hstep, hfault⟩ => ?_, fun hs => ⟨_, step_of_situation hrun hs, rfl⟩⟩
  obtain ⟨-, -, hfaulted⟩ := runStateChangesOnlyByHaltAndFailure s t hstep
  exact ((hfaulted .outOfBounds).mp hfault).2

/-- Settles O15: the failing step answers `s.afterFault`, which is `s` but for its run state, and is not `RUNNING`. -/
theorem failingStepChangesRunStateOnly : Obligations.FailingStepChangesRunStateOnly := by
  refine fun s hrun hs => ⟨s.afterFault, step_of_situation hrun hs, rfl, rfl, rfl, rfl, rfl, rfl, fun u hstep => ?_⟩
  exact RunState.noConfusion (running_of_step hstep)

/-- Settles O16: outside the six situations the opcode's cell exists, so the step executes HALT exactly where that cell
holds 0xFF. -/
theorem nothingElseIsAFailure : Obligations.NothingElseIsAFailure := by
  intro s hrun hs
  have hpc : s.pc.toNat < s.memSize.val := Nat.lt_of_not_le fun hle => hs (.inl hle)
  have hhalt : s.fetched = some .halt ↔ s.cell s.pc.toNat = 0xFF := fetched_eq_halt.trans (and_iff_right hpc)
  obtain ⟨t, hstep, ht⟩ := step_of_not_situation hrun hs
  exact ⟨t, hstep, ht.trans (if_congr hhalt rfl rfl)⟩

end Sys2Proof.Proofs
end

section
/-!
PROOFS. Reset (70_reset_and_hazards.md): the start of a run keeps memory and MEMSIZE (rule R210), and nothing more of the
state before it, so a run has only those two to depend on (rule R216).
-/

namespace Sys2Proof.Proofs

open Sys2Proof.Machine Sys2Proof.Laws

/-- Settles O36: each field of `s.start` is what the law of that field says, and the state after reset has those values
already. -/
theorem resetZeroesRegistersOnly : Obligations.ResetZeroesRegistersOnly :=
  ⟨fun s => ⟨start_pc s, start_r1 s, start_r2 s, start_runState s, start_mem s, start_memSize s⟩, rfl⟩

/-- Two states start alike exactly if they agree in what reset leaves (rule R210). -/
theorem start_eq_start_iff {s t : State} : s.start = t.start ↔ s.mem = t.mem ∧ s.memSize = t.memSize := by
  simp [State.start]

/-- Settles O39: equal memories and equal MEMSIZE make the two starts one state, which has one run. -/
theorem runsDependOnMemoryOnly : Obligations.RunsDependOnMemoryOnly := by
  intro s t k hmem hsize
  have hstart : s.start = t.start := start_eq_start_iff.mpr ⟨hmem, hsize⟩
  rw [hstart]

end Sys2Proof.Proofs
end

section
/-!
PROOFS. Decoding and encoding (30_encoding.md, sections 1 to 3). Both round trips turn on the two shapes of an
instruction's bytes: HALT's opcode alone, or an opcode that is not HALT's with its two operand bytes.
-/

namespace Sys2Proof.Proofs

open Sys2Proof.Laws

/-- The two shapes of what decodes (rules R85, R89). -/
theorem decode_eq_ok {bytes rest : List Byte} {i : Instr} (h : decode bytes = .ok (i, rest)) :
    (bytes = opHalt :: rest ∧ i = .halt) ∨
    ∃ b0 b1 b2, b0 ≠ opHalt ∧ bytes = b0 :: b1 :: b2 :: rest ∧ i = decodeTriple b0 b1 b2 := by
  match bytes with
  | [] => cases h
  | b0 :: tail =>
    by_cases hb : b0 = opHalt
    · subst hb
      cases h
      exact .inl ⟨rfl, rfl⟩
    · match tail with
      | [] => simp [decode, hb] at h
      | [_] => simp [decode, hb] at h
      | b1 :: b2 :: tail =>
        rw [decode_triple hb] at h
        cases h
        exact .inr ⟨b0, b1, b2, hb, rfl, rfl⟩

/-- The decoder drops no bit of a triple. -/
theorem encode_decodeTriple (b0 b1 b2 : Byte) : encode (decodeTriple b0 b1 b2) = [b0, b1, b2] := by
  unfold decodeTriple
  split_ifs with hloadw hstore hadd hsub
  · rw [hloadw]; rfl
  · rw [hstore]; rfl
  · rw [hadd]; rfl
  · rw [hsub]; rfl
  · rfl

/-- An opcode that is none of the five defined ones is a reserved one (rule R86). -/
theorem reservedOpcode_of_ne {op : Byte} (hhalt : op ≠ opHalt) (hloadw : op ≠ opLoadw) (hstore : op ≠ opStore)
    (hadd : op ≠ opAdd) (hsub : op ≠ opSub) : reservedOpcode op := by
  simp only [opHalt, opLoadw, opStore, opAdd, opSub, ne_eq, ← BitVec.toNat_inj, BitVec.reduceToNat] at *
  omega

theorem wellFormed_decodeTriple {b0 : Byte} (h : b0 ≠ opHalt) (b1 b2 : Byte) :
    (decodeTriple b0 b1 b2).WellFormed := by
  unfold decodeTriple
  split_ifs with hloadw hstore hadd hsub
  · trivial
  · trivial
  · trivial
  · trivial
  · exact reservedOpcode_of_ne h hloadw hstore hadd hsub

/-- The two shapes of a well-formed instruction's encoding (rules R84, R89). -/
theorem wellFormed_cases {i : Instr} (h : i.WellFormed) :
    i = .halt ∨ ∃ b0 b1 b2, b0 ≠ opHalt ∧ i = decodeTriple b0 b1 b2 := by
  cases i with
  | loadw r a => exact .inr ⟨opLoadw, r, a, by decide, rfl⟩
  | store r a => exact .inr ⟨opStore, r, a, by decide, rfl⟩
  | add ra rb => exact .inr ⟨opAdd, ra, rb, by decide, rfl⟩
  | sub ra rb => exact .inr ⟨opSub, ra, rb, by decide, rfl⟩
  | halt => exact .inl rfl
  | rsvd op k l =>
    obtain ⟨hhalt, hdecode⟩ := decodeTriple_of_reserved h k l
    exact .inr ⟨op, k, l, hhalt, hdecode.symm⟩

/-- Settles O1: a well-formed instruction is HALT or what a triple decodes to, and the encoding is HALT's opcode or that
triple. -/
theorem decodeAfterEncodeGivesInstruction : Obligations.DecodeAfterEncodeGivesInstruction := by
  intro i rest hi
  obtain rfl | ⟨b0, b1, b2, hb, rfl⟩ := wellFormed_cases hi
  · exact decode_halt rest
  · rw [encode_decodeTriple]
    exact decode_triple hb b1 b2 rest

/-- Settles O2: what decodes was HALT's opcode or a triple that does not begin with it. -/
theorem encodeAfterDecodeGivesBytes : Obligations.EncodeAfterDecodeGivesBytes := by
  intro bytes rest i h
  obtain ⟨rfl, rfl⟩ | ⟨b0, b1, b2, hb, rfl, rfl⟩ := decode_eq_ok h
  · exact ⟨trivial, rfl⟩
  · exact ⟨wellFormed_decodeTriple hb b1 b2, by rw [encode_decodeTriple]; rfl⟩

/-- Settles O4: HALT is found from its opcode, and each of the five triples is dispatched on its own. -/
theorem writtenOutWordsDecode : Obligations.WrittenOutWordsDecode :=
  ⟨decode_triple (by decide) 0x01 0x10 [], decode_triple (by decide) 0x01 0x0E [],
    decode_triple (by decide) 0x01 0x02 [], decode_triple (by decide) 0x01 0x02 [], decode_halt [0x00],
    decode_triple (by decide) 0x03 0xFF []⟩

/-- Settles O5: an opcode that is not HALT's needs both operand bytes. -/
theorem incompleteBytesAreRejected : Obligations.IncompleteBytesAreRejected :=
  ⟨rfl, fun _ _ hb => ⟨decode_short hb, if_neg hb⟩⟩

end Sys2Proof.Proofs
end

section
/-!
PROOFS. What an instruction leaves unchanged (10_state.md, sections 1 to 4; 20_memory.md, section 7), by its effect: of
memory only a word stored changes it, and of the program counter only a result in register 0 moves it by other than 3.
-/

namespace Sys2Proof.Proofs

open Sys2Proof.Machine Sys2Proof.Laws

/-- A register id and two cells that memory has are no reason for LOADW or STORE to raise (rule R181). -/
theorem access_not_raise {s : State} {r a : Byte} (hr : r.toNat ≤ 2) (ha : dataAddress a + 1 < s.memSize.val) :
    ¬ (2 < r.toNat ∨ s.memSize.val ≤ dataAddress a + 1) :=
  not_or.mpr ⟨Nat.not_lt.mpr hr, Nat.not_le.mpr ha⟩

/-! ## Memory -/

/-- What an instruction does to memory: nothing, or it is a STORE that completed (rules R60, R69). -/
theorem exec_memory {i : Instr} {s t : State} (h : exec i s = .next t) :
    (t.mem = s.mem ∧ t.memSize = s.memSize) ∨
    ∃ r a u, i = .store r a ∧ s.writeWord (dataAddress a) (s.regAt r) = some u ∧ t = u.advance := by
  cases exec_effect h with
  | raised h => subst h; exact .inl ⟨rfl, rfl⟩
  | ended hi h => subst h; exact .inl ⟨rfl, rfl⟩
  | nothing op k l hi h => subst h; exact .inl ⟨rfl, rfl⟩
  | result b v hi hb h => subst h; exact .inl ⟨rfl, rfl⟩
  | stored r a u hi hr hu h => exact .inr ⟨r, a, u, hi, hu, h⟩

theorem cell_congr {s t : State} (h : t.mem = s.mem) (x : Nat) : t.cell x = s.cell x :=
  congrArg (Memory.read · x) h

theorem afterResult_r1 {b : Byte} (hb : b ≠ 1) (s : State) (v : Word) : (s.afterResult b v).r1 = s.r1 := if_neg hb

theorem afterResult_r2 {b : Byte} (hb : b ≠ 2) (s : State) (v : Word) : (s.afterResult b v).r2 = s.r2 := if_neg hb

/-- Settles O32: without a word stored memory is as before, and a result changes no register but the destination. -/
theorem nonStoringInstructionsFrame : Obligations.NonStoringInstructionsFrame := by
  intro i s t hi h
  cases exec_effect h with
  | raised h => subst h; exact ⟨fun _ => rfl, rfl, fun _ => rfl, fun _ => rfl, .inr (.inl rfl)⟩
  | ended hhalt h => subst h; exact ⟨fun _ => rfl, rfl, fun _ => rfl, fun _ => rfl, .inr (.inr ⟨hhalt, rfl⟩)⟩
  | nothing op k l hrsvd h => subst h; exact ⟨fun _ => rfl, rfl, fun _ => rfl, fun _ => rfl, .inl rfl⟩
  | result b v hdest hb h =>
    subst h
    rw [hdest]
    exact ⟨fun _ => rfl, rfl, fun hne => afterResult_r1 (fun hb => hne (congrArg some hb)) s v,
      fun hne => afterResult_r2 (fun hb => hne (congrArg some hb)) s v, .inl rfl⟩
  | stored r a u hstore hr hu h => subst hstore; cases hi

/-- Settles O33: a STORE raises, or it is a word write and the advance. -/
theorem storeFrame : Obligations.StoreFrame := by
  intro r a s t h
  by_cases hraise : ExecRaises s (.store r a)
  · rw [exec_of_raises hraise] at h
    cases h
    exact ⟨rfl, rfl, rfl, fun _ _ _ _ _ => rfl, .inr rfl⟩
  · obtain ⟨u, hu, hexec⟩ := exec_store_of_not_raises hraise
    rw [hexec] at h
    cases h
    obtain ⟨hpc, hr1, hr2, hrun, hsize⟩ := writeWord_advance_frame hu
    refine ⟨hr1, hr2, hsize, fun low hlow x h0 h1 => ?_, .inl ⟨hpc, hrun⟩⟩
    cases hlow
    rw [advance_cell]
    exact writeWord_cell_other hu h0 h1

/-! ## The program counter -/

theorem afterResult_pc {b : Byte} (hb : b ≠ 0) (s : State) (v : Word) : (s.afterResult b v).pc = s.pc + 3 :=
  congrArg (· + 3) (if_neg hb)

theorem toNat_add_three (pc : Word) : (pc + 3).toNat = (pc.toNat + 3) % 65536 := BitVec.toNat_add pc 3

/-- The run state and the program counter after an instruction that does not complete in register 0: it went on and
advanced, or the run ended where it was (rules R27, R118, R184). -/
theorem exec_runState_pc {i : Instr} {s t : State} (hrun : s.runState = .running) (h : exec i s = .next t) :
    (t.runState = .running ∧ (Instr.destination i = some 0 ∨ t.pc = s.pc + 3)) ∨
    (t.runState ≠ .running ∧ t.pc = s.pc) := by
  cases exec_effect h with
  | raised h => subst h; exact .inr ⟨RunState.noConfusion, rfl⟩
  | ended hi h => subst h; exact .inr ⟨RunState.noConfusion, rfl⟩
  | nothing op k l hi h => subst h; exact .inl ⟨hrun, .inr (advance_pc s)⟩
  | result b v hdest hb h =>
    subst h
    refine .inl ⟨hrun, ?_⟩
    by_cases h0 : b = 0
    · exact .inl (hdest.trans (congrArg some h0))
    · exact .inr (afterResult_pc h0 s v)
  | stored r a u hi hr hu h =>
    subst h
    obtain ⟨hpc, -, -, hrunState, -⟩ := writeWord_advance_frame hu
    exact .inl ⟨hrunState.trans hrun, .inr hpc⟩

/-- Settles O28: the two cases of `exec_runState_pc`. -/
theorem programCounterAdvancesByThree : Obligations.ProgramCounterAdvancesByThree := by
  intro i s t hrun h
  obtain ⟨hon, hdest | hpc⟩ | ⟨hend, hpc⟩ := exec_runState_pc hrun h
  · exact ⟨fun _ hne => absurd hdest hne, fun hne => absurd hon hne⟩
  · exact ⟨fun _ _ => by rw [hpc, toNat_add_three], fun hne => absurd hon hne⟩
  · exact ⟨fun hon => absurd hon hend, fun _ => hpc⟩

/-- What an instruction with a destination can do: raise, or leave a result there (rule R24). -/
theorem exec_of_destination {i : Instr} {b : Byte} {s t : State} (hdest : Instr.destination i = some b)
    (h : exec i s = .next t) : t = s.afterFault ∨ ∃ v, t = s.afterResult b v := by
  cases exec_effect h with
  | raised h => exact .inl h
  | ended hi _ => subst hi; cases hdest
  | nothing op k l hi _ => subst hi; cases hdest
  | result b' v hi _ h =>
    obtain rfl : b' = b := Option.some.inj (hi.symm.trans hdest)
    exact .inr ⟨v, h⟩
  | stored r a u hi _ _ _ => subst hi; cases hdest

/-- Settles O27: a result in register 0 changes no accumulator and no cell, and a fetch outside memory is the first
situation of rule R181 at the step that makes it. -/
theorem controlTransferLeavesNothingBehind : Obligations.ControlTransferLeavesNothingBehind := by
  refine ⟨fun i s t hrun hdest h hon => ?_, fun s a ha => ?_⟩
  · obtain rfl | ⟨v, rfl⟩ := exec_of_destination hdest h
    · exact RunState.noConfusion hon
    · exact ⟨rfl, rfl, rfl, fun hle => step_of_situation hon (.inl hle)⟩
  · refine ⟨_, exec_loadw_of_not_raises (access_not_raise (by decide) ha), rfl, ?_⟩
    rw [afterResult_zero_pc, toNat_add_three]
    exact congrArg (fun n => (n + 3) % 65536) (wordOfCells_toNat _ _)

/-! ## SUB and then ADD -/

/-- A result in an accumulator and then the old value there again leave two advances. -/
theorem afterResult_restore {b : Byte} (hb : b = 1 ∨ b = 2) (s : State) (v : Word) :
    (s.afterResult b v).afterResult b (s.regAt b) = { s with pc := s.pc + 6 } := by
  have hpc : s.pc + 3 + 3 = s.pc + 6 := BitVec.add_assoc s.pc 3 3
  rw [← hpc]
  obtain rfl | rfl := hb <;> rfl

/-- Settles O25: the second register still holds what was subtracted, and words add and subtract without loss. -/
theorem addUndoesSub : Obligations.AddUndoesSub := by
  intro s ra rb h
  have ha : ra = 1 ∨ ra = 2 := h.imp And.left And.left
  have hb : rb = 1 ∨ rb = 2 := h.symm.imp And.right And.right
  have hids := register_ids_not_raise (accumulator_le ha) (accumulator_le hb)
  have hkept : ∀ v, (s.afterResult ra v).regAt rb = s.regAt rb := by
    intro v
    obtain ⟨rfl, rfl⟩ | ⟨rfl, rfl⟩ := h <;> rfl
  refine ⟨_, exec_sub_of_not_raises hids, ?_⟩
  rw [exec_add_of_not_raises hids, hkept, (afterResult_accumulator ha s _).2, BitVec.sub_add_cancel,
    afterResult_restore ha]

end Sys2Proof.Proofs
end

section
/-!
PROOFS. The step on what stands in memory (40_cycle_and_control.md, section 1). An encoding that stands in memory at the
program counter is what the fetch reads; that holds of an instruction the host has placed there, too.
-/

namespace Sys2Proof.Proofs

open Sys2Proof.Machine Sys2Proof.Laws

/-- Settles O6: `step` is `exec` of what the fetched bytes decode to. -/
theorem stepRunsDecodedInstruction : Obligations.StepRunsDecodedInstruction := by
  intro s i rest hrun _ hdecode
  rw [step_running hrun, State.fetched, hdecode]

/-- Settles O13: each terminal run state has its own arm of `step`. -/
theorem terminalStatesAnswerNamedFaults : Obligations.TerminalStatesAnswerNamedFaults :=
  fun s => ⟨fun h => by rw [step, h], fun f h => by rw [step, h]⟩

/-- The fetch does not look at the run state, so it reads all three cells in every run state. -/
theorem fetchBytes_triple {s : State} (hpc : s.pc.toNat + 2 < s.memSize.val) (hb : s.cell s.pc.toNat ≠ opHalt) :
    s.fetchBytes = [s.cell s.pc.toNat, s.cell (s.pc.toNat + 1), s.cell (s.pc.toNat + 2)] :=
  have hlt : s.pc.toNat < s.memSize.val := by omega
  (operandFetchOutsideMemoryRaises { s with runState := .running } rfl hlt hb).2 hpc

/-- The fetch reads an encoding that stands in memory at the program counter, and not a cell more. -/
theorem fetchBytes_eq_encode {s : State} {i : Instr} (hi : i.WellFormed)
    (hlen : s.pc.toNat + (encode i).length ≤ s.memSize.val)
    (hcells : ∀ k b, (encode i)[k]? = some b → s.cell (s.pc.toNat + k) = b) : s.fetchBytes = encode i := by
  obtain rfl | ⟨b0, b1, b2, hb, rfl⟩ := wellFormed_cases hi
  · exact fetchBytes_halt hlen (hcells 0 _ rfl)
  · rw [encode_decodeTriple] at hlen hcells ⊢
    have h0 := hcells 0 b0 rfl
    rw [Nat.add_zero] at h0
    rw [fetchBytes_triple hlen (h0 ▸ hb), h0, hcells 1 b1 rfl, hcells 2 b2 rfl]

/-- Settles O7: the fetch reads the encoding, which decodes to the instruction again. -/
theorem stepRunsInstructionInMemory : Obligations.StepRunsInstructionInMemory := by
  intro s i hrun hi hlen hcells
  refine stepRunsDecodedInstruction s i [] hrun hi ?_
  rw [fetchBytes_eq_encode hi hlen hcells, ← List.append_nil (encode i)]
  exact decodeAfterEncodeGivesInstruction i [] hi

/-- Settles O11: an address sum at or above MEMSIZE is outside memory, for MEMSIZE is at most 65536. -/
theorem addressesNeverWrap : Obligations.AddressesNeverWrap := by
  refine ⟨fun s hrun hpc hb => ?_, fun s r hsize => ?_, fun s r hsize hr => ?_⟩
  · have := memSize_le s
    exact step_of_situation hrun (.inr (.inl ⟨hb, by omega⟩))
  · exact ⟨exec_of_raises (.inr hsize), exec_of_raises (.inr hsize)⟩
  · exact exec_loadw_of_not_raises (access_not_raise hr hsize)

/-! ## What the host places -/

@[simp] theorem hostWrite_memSize (s : State) (a : Nat) (b : Byte) : (s.hostWrite a b).memSize = s.memSize := by
  unfold State.hostWrite
  split <;> rfl

@[simp] theorem hostWrite_pc (s : State) (a : Nat) (b : Byte) : (s.hostWrite a b).pc = s.pc := by
  unfold State.hostWrite
  split <;> rfl

theorem hostWrite_wf {s : State} (hwf : Memory.wf s.mem = true) (a : Nat) (b : Byte) :
    Memory.wf (s.hostWrite a b).mem = true := by
  unfold State.hostWrite
  split
  · exact wf_write hwf
  · exact hwf

theorem hostWrite_cell_same {s : State} {a : Nat} {b : Byte} (hwf : Memory.wf s.mem = true) (ha : a < s.memSize.val) :
    (s.hostWrite a b).cell a = b := by
  rw [State.hostWrite, if_pos (show s.inRange a 1 from ha)]
  exact read_write_same hwf

theorem hostWrite_cell_other {s : State} {a x : Nat} {b : Byte} (hne : x ≠ a) :
    (s.hostWrite a b).cell x = s.cell x := by
  unfold State.hostWrite
  split
  · exact read_write_other hne
  · rfl

@[simp] theorem hostWriteBytes_memSize {bs : List Byte} : ∀ (s : State) (a : Nat),
    (s.hostWriteBytes a bs).memSize = s.memSize := by
  induction bs with
  | nil => intros; rfl
  | cons b bs ih => exact fun s a => (ih _ _).trans (hostWrite_memSize s a b)

@[simp] theorem hostWriteBytes_pc {bs : List Byte} : ∀ (s : State) (a : Nat), (s.hostWriteBytes a bs).pc = s.pc := by
  induction bs with
  | nil => intros; rfl
  | cons b bs ih => exact fun s a => (ih _ _).trans (hostWrite_pc s a b)

theorem hostWriteBytes_cell_below {bs : List Byte} : ∀ {s : State} {a x : Nat}, x < a →
    (s.hostWriteBytes a bs).cell x = s.cell x := by
  induction bs with
  | nil => intros; rfl
  | cons b bs ih =>
    intro s a x hlt
    exact (ih (Nat.lt_succ_of_lt hlt)).trans (hostWrite_cell_other (Nat.ne_of_lt hlt))

/-- Bytes the host writes within memory are there to be read. -/
theorem hostWriteBytes_cell {bs : List Byte} : ∀ {s : State} {a k : Nat} {b : Byte}, Memory.wf s.mem = true →
    a + bs.length ≤ s.memSize.val → bs[k]? = some b → (s.hostWriteBytes a bs).cell (a + k) = b := by
  induction bs with
  | nil => intro s a k b _ _ hk; simp at hk
  | cons b0 bs ih =>
    intro s a k b hwf hlen hk
    rw [List.length_cons] at hlen
    cases k with
    | zero =>
      cases hk
      exact (hostWriteBytes_cell_below (Nat.lt_succ_self a)).trans (hostWrite_cell_same hwf (by omega))
    | succ k =>
      rw [Nat.add_left_comm a k 1, Nat.add_comm k]
      exact ih (hostWrite_wf hwf a b0) (by rw [hostWrite_memSize]; omega) hk

theorem growTo_pc (s : State) (n : Nat) : (s.growTo n).pc = s.pc := by
  unfold State.growTo
  split <;> rfl

theorem le_growTo_memSize {n : Nat} (hn : n ≤ Config.maxMemSize) (s : State) : n ≤ (s.growTo n).memSize.val := by
  unfold State.growTo
  split
  · simp only [dif_pos (Nat.lt_succ_of_le hn), le_refl]
  · omega

@[simp] theorem placeAtPc_pc (s : State) (bytes : List Byte) : (s.placeAtPc bytes).pc = s.pc :=
  (hostWriteBytes_pc _ _).trans (growTo_pc s _)

theorem placeAtPc_memSize (s : State) (bytes : List Byte) :
    (s.placeAtPc bytes).memSize = (s.growTo (s.pc.toNat + bytes.length)).memSize :=
  hostWriteBytes_memSize _ _

section Placed

variable {s : State} {bytes : List Byte} (hinv : s.Inv)
include hinv

theorem placeAtPc_inv : (s.placeAtPc bytes).Inv :=
  have ⟨hwf, hb⟩ := growTo_memory hinv.1 hinv.2
  hostWriteBytes_memory hwf hb

/-- Bytes placed at the program counter stand in memory there, if any memory can hold them. -/
theorem placeAtPc_cells (hlen : s.pc.toNat + bytes.length ≤ Config.maxMemSize) :
    s.pc.toNat + bytes.length ≤ (s.placeAtPc bytes).memSize.val ∧
      ∀ k b, bytes[k]? = some b → (s.placeAtPc bytes).cell (s.pc.toNat + k) = b := by
  have hgrown := le_growTo_memSize hlen s
  rw [placeAtPc_memSize]
  exact ⟨hgrown, fun k b hk => hostWriteBytes_cell (growTo_memory hinv.1 hinv.2).1 hgrown hk⟩

end Placed

theorem decodeTableWord_eq_some {nbits w : Nat} {i : Instr} (h : decodeTableWord nbits w = some i) :
    ∃ rest, decode (tableBytes nbits w) = .ok (i, rest) := by
  unfold decodeTableWord at h
  split at h
  · next j rest hdecode =>
    cases h
    exact ⟨rest, hdecode⟩
  · cases h

/-- Settles O38: the bytes placed are the instruction's encoding and what follows it, so the encoding stands in memory
at the program counter. -/
theorem placedInstructionIsRunNext : Obligations.PlacedInstructionIsRunNext := by
  intro s w i hinv hpc hw
  obtain ⟨rest, hdecode⟩ := decodeTableWord_eq_some hw
  obtain ⟨hwf, hbytes⟩ := encodeAfterDecodeGivesBytes _ _ _ hdecode
  obtain ⟨hlen, hcells⟩ := placeAtPc_cells (bytes := tableBytes 24 w) hinv hpc
  have hprefix : encode i <+: tableBytes 24 w := ⟨rest, hbytes⟩
  rw [State.withFetchWord]
  refine ⟨stepRunsInstructionInMemory _ i rfl hwf ?_ ?_, placeAtPc_inv hinv⟩
  · rw [placeAtPc_pc]
    exact (Nat.add_le_add_left hprefix.length_le _).trans hlen
  · intro k b hk
    obtain ⟨hlt, rfl⟩ := List.getElem?_eq_some_iff.mp hk
    rw [placeAtPc_pc]
    exact hcells k _ (List.prefix_iff_getElem?.mp hprefix k hlt)

end Sys2Proof.Proofs
end

section
/-!
PROOFS. Words that travel between registers and memory (41_load_store.md, sections 2 and 3; 20_memory.md, section 6): a
word stored is what a later load and a later fetch read.
-/

namespace Sys2Proof.Proofs

open Sys2Proof.Machine Sys2Proof.Laws

/-- A word written is the word at its address. -/
theorem wordAt_of_writeWord {s t : State} {a : Nat} {v : Word} (hwf : Memory.wf s.mem = true)
    (h : s.writeWord a v = some t) : t.wordAt a = v :=
  (readWord_eq_some.mp (readWord_of_writeWord hwf h)).2

/-- Writing back the word at an address changes no cell. -/
theorem writeWord_wordAt_cell {s t : State} {a : Nat} (hwf : Memory.wf s.mem = true)
    (h : s.writeWord a (s.wordAt a) = some t) (x : Nat) : t.cell x = s.cell x := by
  by_cases hlow : x = a
  · rw [hlow, writeWord_cell_low hwf h]
    exact lowCell_wordOfCells _ _
  · by_cases hhigh : x = a + 1
    · rw [hhigh, writeWord_cell_high hwf h]
      exact highCell_wordOfCells _ _
    · exact writeWord_cell_other h hlow hhigh

/-- Settles O30: a word written reads back as itself, and the word at an address written back changes no cell. -/
theorem storeThenLoadRoundTrip : Obligations.StoreThenLoadRoundTrip := by
  refine fun s a hwf ha => ⟨fun r q hr hq => ?_, fun r hr => ?_⟩
  · obtain ⟨u, hu, hstore⟩ := exec_store_of_not_raises (access_not_raise hr ha)
    obtain ⟨-, -, -, -, hsize⟩ := writeWord_advance_frame hu
    have hraise : ¬ ExecRaises u.advance (.loadw q a) := access_not_raise hq (hsize ▸ ha)
    have hword : u.wordAt (dataAddress a) = s.regAt r := wordAt_of_writeWord hwf hu
    exact ⟨u.advance, hstore, (exec_loadw_of_not_raises hraise).trans (by rw [← hword]; rfl)⟩
  · have hraise := access_not_raise (accumulator_le hr) ha
    obtain ⟨u, hu, hstore⟩ := exec_store_of_not_raises (s := s.afterResult r (s.wordAt a.toNat)) hraise
    rw [(afterResult_accumulator hr s _).2] at hu
    have hcells : ∀ x, u.cell x = s.cell x :=
      writeWord_wordAt_cell (s := s.afterResult r (s.wordAt a.toNat)) hwf hu
    exact ⟨_, u.advance, exec_loadw_of_not_raises hraise, hstore, hcells⟩

/-- Settles O31: the program counter does not wrap below MEMSIZE, and the fetch there reads the two cells stored and the
cell after them. -/
theorem storeIsSeenByNextFetch : Obligations.StoreIsSeenByNextFetch := by
  intro s r a hwf hr ha hsize hlow
  have hcells : dataAddress a + 1 < s.memSize.val := by omega
  obtain ⟨u, hu, hstore⟩ := exec_store_of_not_raises (access_not_raise hr hcells)
  obtain ⟨hpc, -, -, -, hmemSize⟩ := writeWord_advance_frame hu
  rw [ha] at hu
  have hnext : u.advance.pc.toNat = s.pc.toNat + 3 := by
    have := memSize_le s
    rw [hpc, toNat_add_three]
    omega
  have h0 : u.advance.cell u.advance.pc.toNat = lowCell (s.regAt r) := by
    rw [hnext, advance_cell, writeWord_cell_low hwf hu]
  have h1 : u.advance.cell (u.advance.pc.toNat + 1) = highCell (s.regAt r) := by
    rw [hnext, advance_cell, writeWord_cell_high hwf hu]
  have h2 : u.advance.cell (u.advance.pc.toNat + 2) = s.cell (s.pc.toNat + 5) := by
    rw [hnext, advance_cell, writeWord_cell_other hu (by omega) (by omega)]
  have hhalt : lowCell (s.regAt r) ≠ opHalt := fun h => hlow ((lowCell_toNat _).symm.trans (congrArg BitVec.toNat h))
  refine ⟨u.advance, hstore, ?_⟩
  rw [fetchBytes_triple (by rw [hnext, hmemSize]; omega) (h0 ▸ hhalt), h0, h1, h2]
  rfl

end Sys2Proof.Proofs
end

section
/-!
PROOFS. Runs: the memory invariant (10_state.md, section 4), the cells a run can change (20_memory.md, sections 1
and 7), and the length of a run in which nothing writes register 0 (40_cycle_and_control.md, section 5). Each is one
fact about a step, carried along the run by induction.
-/

namespace Sys2Proof.Proofs

open Sys2Proof.Machine Sys2Proof.Laws

/-- What holds of every state a run passes through holds of the first and along the run from the second. -/
theorem forall_passed_succ {P : State → Prop} {k : Nat} {s u : State} (hstep : step s = .next u)
    (h : ∀ j < k + 1, ∀ v, runSteps j s = .next v → P v) : P s ∧ ∀ j < k, ∀ v, runSteps j u = .next v → P v :=
  ⟨h 0 (Nat.succ_pos k) s rfl, fun j hj v hv =>
    h (j + 1) (Nat.succ_lt_succ hj) v (runSteps_succ_next.mpr ⟨u, hstep, hv⟩)⟩

/-! ## Memory -/

/-- What a step does to memory: nothing, or it is a STORE that completed. -/
theorem step_memory {s t : State} (h : step s = .next t) :
    (t.mem = s.mem ∧ t.memSize = s.memSize) ∨
    ∃ r a u, s.fetched = some (.store r a) ∧ exec (.store r a) s = .next t ∧
      s.writeWord (dataAddress a) (s.regAt r) = some u ∧ t = u.advance := by
  obtain ⟨-, rfl⟩ | ⟨i, hf, hexec⟩ := step_cases h
  · exact .inl ⟨rfl, rfl⟩
  · obtain hkept | ⟨r, a, u, rfl, hu, ht⟩ := exec_memory hexec
    · exact .inl hkept
    · exact .inr ⟨r, a, u, hf, hexec, hu, ht⟩

/-- Settles O34: a word write within memory keeps the invariant. -/
theorem stepKeepsMemoryInvariant : Obligations.StepKeepsMemoryInvariant := by
  rintro s t ⟨hwf, hb⟩ h
  obtain ⟨hmem, hsize⟩ | ⟨r, a, u, -, -, hu, rfl⟩ := step_memory h
  · rw [State.Inv, hmem, hsize]
    exact ⟨hwf, hb⟩
  · rw [State.Inv, advance_mem, advance_memSize]
    exact writeWord_memory hu hwf hb

/-- Settles O35: the memory after reset lists no cell. -/
theorem resetMeetsMemoryInvariant : Obligations.ResetMeetsMemoryInvariant := ⟨rfl, rfl⟩

/-- A step changes no cell that it does not store to (rule R69). -/
theorem step_cell_of_not_storesTo {s t : State} {a : Nat} (h : step s = .next t) (hstore : ¬ s.storesTo a) :
    t.cell a = s.cell a := by
  obtain ⟨hmem, -⟩ | ⟨r, b, u, hf, hexec, hu, rfl⟩ := step_memory h
  · exact cell_congr hmem a
  · obtain ⟨-, -, -, hkept, -⟩ := writeWord_advance_frame hu
    have hother : ¬ (a = dataAddress b ∨ a = dataAddress b + 1) := fun ha =>
      hstore ⟨_, _, _, hf, rfl, hexec, hkept.trans (running_of_step h), ha⟩
    obtain ⟨hlow, hhigh⟩ := not_or.mp hother
    rw [advance_cell, writeWord_cell_other hu hlow hhigh]

/-- Settles O40, by induction on the number of steps. -/
theorem runChangesOnlyStoredCells : Obligations.RunChangesOnlyStoredCells := by
  intro k
  induction k with
  | zero => intro s t a h _; cases h; rfl
  | succ k ih =>
    intro s t a h hstores
    obtain ⟨u, hu, ht⟩ := runSteps_succ_next.mp h
    obtain ⟨hfirst, hrest⟩ := forall_passed_succ hu hstores
    exact (ih u t a ht hrest).trans (step_cell_of_not_storesTo hu hfirst)

/-- `t` has the MEMSIZE of `s` and its cells at 257 and above, which no data address reaches (rule R53). -/
def SameHighCells (s t : State) : Prop :=
  t.memSize = s.memSize ∧ ∀ a, 257 ≤ a → t.cell a = s.cell a

theorem step_sameHighCells {s t : State} (h : step s = .next t) : SameHighCells s t := by
  obtain ⟨hmem, hsize⟩ | ⟨r, b, u, -, -, hu, rfl⟩ := step_memory h
  · exact ⟨hsize, fun a _ => cell_congr hmem a⟩
  · obtain ⟨-, -, -, -, hsize⟩ := writeWord_advance_frame hu
    have hlt : dataAddress b < 256 := b.isLt
    refine ⟨hsize, fun a ha => ?_⟩
    rw [advance_cell, writeWord_cell_other hu (by omega) (by omega)]

theorem SameHighCells.trans {s t u : State} (h : SameHighCells s t) (h' : SameHighCells t u) : SameHighCells s u :=
  ⟨h'.1.trans h.1, fun a ha => (h'.2 a ha).trans (h.2 a ha)⟩

/-- Settles O41: every step keeps MEMSIZE and the high cells, and so every run does. -/
theorem runNeverReachesHighCells : Obligations.RunNeverReachesHighCells := fun _ s _ h =>
  run_keeps (P := SameHighCells s) (fun _ _ hs hstep => hs.trans (step_sameHighCells hstep)) ⟨rfl, fun _ _ => rfl⟩ h

/-! ## Runs without control transfer -/

/-- A `RUNNING` state has a step: no instruction lacks a meaning (rule R87). -/
theorem exists_step {s : State} (h : s.runState = .running) : ∃ t, step s = .next t := by
  rw [step_running h]
  cases s.fetched with
  | none => exact ⟨_, rfl⟩
  | some i => exact exec_total i s

/-- Every instruction but HALT is fetched from three cells that memory has (rules R52, R113). -/
theorem operands_in_memory_of_fetched {s : State} {i : Instr} (hf : s.fetched = some i) (hi : i ≠ .halt) :
    s.pc.toNat + 2 < s.memSize.val := by
  obtain ⟨-, hnone⟩ | ⟨-, -, hhalt⟩ | ⟨hlt, -, -⟩ := fetched_cases s
  · rw [hnone] at hf; cases hf
  · exact absurd (Option.some.inj (hf.symm.trans hhalt)) hi
  · exact hlt

/-- A step that does not write register 0, from an address that is a multiple of 3: it goes on 3 further, which does not
wrap for the three cells it fetched are in memory, or the run ends where it is. -/
theorem step_pc_of_not_writesPc {s t : State} (h : step s = .next t) (hw : ¬ s.writesPc) (h3 : s.pc.toNat % 3 = 0) :
    (t.runState = .running ∧ s.pc.toNat + 2 < s.memSize.val ∧ t.pc.toNat = s.pc.toNat + 3) ∨
    (t.runState ≠ .running ∧ t.pc = s.pc) := by
  have hrun := running_of_step h
  obtain ⟨-, rfl⟩ | ⟨i, hf, hexec⟩ := step_cases h
  · exact .inr ⟨RunState.noConfusion, rfl⟩
  obtain ⟨hon, hpc⟩ | hend := exec_runState_pc hrun hexec
  · have hpc : t.pc = s.pc + 3 := hpc.resolve_left fun hdest => hw ⟨i, t, hf, hdest, hexec, hon⟩
    have hhalt : i ≠ .halt := by
      rintro rfl
      cases hexec
      cases hon
    have hfetch := operands_in_memory_of_fetched hf hhalt
    have := memSize_le s
    exact .inl ⟨hon, hfetch, by rw [hpc, toNat_add_three]; omega⟩
  · exact .inr hend

/-- A run without control transfer ends within one step for each three cells that are left, and one more. -/
theorem exists_end_of_not_writesPc {n : Nat} : ∀ {s : State}, s.runState = .running → s.pc.toNat % 3 = 0 →
    s.memSize.val < s.pc.toNat + 3 * (n + 1) → (∀ k t, runSteps k s = .next t → ¬ t.writesPc) →
    ∃ k t, k ≤ n + 1 ∧ runSteps k s = .next t ∧ t.runState ≠ .running := by
  induction n with
  | zero =>
    intro s hrun h3 hroom hw
    obtain ⟨u, hu⟩ := exists_step hrun
    obtain ⟨-, hlt, -⟩ | ⟨hend, -⟩ := step_pc_of_not_writesPc hu (hw 0 s rfl) h3
    · omega
    · exact ⟨1, u, le_rfl, runSteps_succ_next.mpr ⟨u, hu, rfl⟩, hend⟩
  | succ n ih =>
    intro s hrun h3 hroom hw
    obtain ⟨u, hu⟩ := exists_step hrun
    obtain ⟨hon, -, hpc⟩ | ⟨hend, -⟩ := step_pc_of_not_writesPc hu (hw 0 s rfl) h3
    · have hsize : u.memSize = s.memSize := (step_sameHighCells hu).1
      obtain ⟨k, t, hk, ht, hend⟩ := ih hon (by omega) (by rw [hsize]; omega)
        fun k t ht => hw (k + 1) t (runSteps_succ_next.mpr ⟨u, hu, ht⟩)
      exact ⟨k + 1, t, Nat.succ_le_succ hk, runSteps_succ_next.mpr ⟨u, hu, ht⟩, hend⟩
    · exact ⟨1, u, by omega, runSteps_succ_next.mpr ⟨u, hu, rfl⟩, hend⟩

/-- Settles O42: from address 0 all of memory is left. -/
theorem runWithoutTransferEnds : Obligations.RunWithoutTransferEnds := by
  intro s hrun hpc hw
  have h0 : s.pc.toNat = 0 := congrArg BitVec.toNat hpc
  exact exists_end_of_not_writesPc hrun (by omega) (by omega) hw

theorem runSteps_eq_zero_of_not_running {k : Nat} {s t : State} (hend : s.runState ≠ .running)
    (h : runSteps k s = .next t) : k = 0 := by
  cases k with
  | zero => rfl
  | succ k =>
    obtain ⟨u, hu, -⟩ := runSteps_succ_next.mp h
    exact absurd (running_of_step hu) hend

/-- A run without control transfer ends three cells further for each step but the last. -/
theorem end_pc_of_not_writesPc {k : Nat} : ∀ {s t : State}, s.runState = .running → s.pc.toNat % 3 = 0 →
    runSteps k s = .next t → t.runState ≠ .running → (∀ j < k, ∀ u, runSteps j s = .next u → ¬ u.writesPc) →
    t.pc.toNat + 3 = s.pc.toNat + 3 * k := by
  induction k with
  | zero =>
    intro s t hrun _ h hend _
    cases h
    exact absurd hrun hend
  | succ k ih =>
    intro s t hrun h3 h hend hw
    obtain ⟨u, hu, ht⟩ := runSteps_succ_next.mp h
    obtain ⟨hfirst, hrest⟩ := forall_passed_succ hu hw
    obtain ⟨hon, -, hpc⟩ | ⟨hstop, hpc⟩ := step_pc_of_not_writesPc hu hfirst h3
    · have := ih hon (by omega) ht hend hrest
      omega
    · obtain rfl := runSteps_eq_zero_of_not_running hstop ht
      cases ht
      rw [hpc]

/-- Settles O43: the run's end is three cells further for each step but the HALT. -/
theorem haltStepCountIsItsAddress : Obligations.HaltStepCountIsItsAddress := by
  intro s t k hrun hpc h hhalt hw
  have h0 : s.pc.toNat = 0 := congrArg BitVec.toNat hpc
  have hend : t.runState ≠ .running := by rw [hhalt]; exact RunState.noConfusion
  have := end_pc_of_not_writesPc hrun (by omega) h hend hw
  omega

end Sys2Proof.Proofs
end
